-- ==== Sys2Proof/Word.lean ====
section
/-! DEFINITION. The machine words of BFCORE: the 64-bit operand and the 136-bit command record. -/

namespace Sys2Proof

/-- A 64-bit unsigned word: h1, h2, an index operand, a derived value g_i (rule R8, rule R41, rule R42). -/
abbrev Word := BitVec 64

/-- A command record: one number of exactly 136 bits, bit 0 the least significant bit of `y` (rule R39). -/
abbrev Record := BitVec 136

end Sys2Proof
end

