-- ==== Sys2Proof/Config.lean ====
section
/-! DEFINITION. What is fixed when a block is built: the array size M and the hash count K (rules R5, R6, R7, R14). BFCORE
leaves no value free, so this file declares no free value. -/

namespace Sys2Proof

/-- The build constants of one block. `m` is the spec's `M`, the bits of the bit array; `k` is the spec's `K`, the derived
values per hash pair. The two ranges are part of the type: a pair outside them builds no block (rule R5, rule R6, rule R7;
DESIGN CHOICE of the form, safe, log entry 2). -/
structure Params where
  m : Nat
  k : Nat
  m_range : 1 ≤ m ∧ m ≤ 2 ^ 64
  k_range : 1 ≤ k ∧ k ≤ 2 ^ 64 - 1
deriving DecidableEq, Repr

/-- Building a block from a pair (M, K): the block's constants where both are in range, and no block otherwise (rule R7). -/
def Params.build? (m k : Nat) : Option Params :=
  if hm : 1 ≤ m ∧ m ≤ 2 ^ 64 then
    if hk : 1 ≤ k ∧ k ≤ 2 ^ 64 - 1 then some ⟨m, k, hm, hk⟩ else none
  else none

/-- The constants of the block that `State.reset` shows: M = 48, K = 3, the block of the source's concrete scenario
(95_test_vectors.md S6). DESIGN CHOICE, unsafe (log entry 3): BFCORE has no default M or K (rule R107), and no statement
rests on these two numbers. -/
def Params.scenario : Params := ⟨48, 3, by decide, by decide⟩

end Sys2Proof
end

