-- ==== Sys2Proof/Machine/State.lean ====
section
/-! DEFINITION. The state of BFCORE: the build constants, the bit array, and the two ends of the command port. Responses,
host actions, faults and refusals, and the state after reset. -/

namespace Sys2Proof.Machine

/-- The bit array `bits` (rule R15): the indices of the cells that are 1, in strictly rising order, each once; a cell that
is not listed is 0. This is how 95_test_vectors.md writes the array; rule R28 leaves any packing out (DESIGN
CHOICE, safe, log entry 6). -/
abbrev Memory := List Nat

/-- The status of a response (rule R87). No other status exists. -/
inductive Status where
  /-- 0x00. -/
  | ok
  /-- 0x01. -/
  | indexOutOfRange
  /-- 0x02. -/
  | illegalCommand
deriving DecidableEq, Repr

/-- The two errors a command can raise (rule R86). An error is a response, not a stop: see `raise`. -/
inductive CommandError where
  /-- SET or TEST with an index ≥ M (rule R88). -/
  | indexOutOfRange
  /-- A record that does not decode (rule R89). -/
  | illegalCommand
deriving DecidableEq, Repr

/-- One beat of a DERIVE response: the pair (g_i, index_i), 64 bits each (rule R47). -/
structure Beat where
  g : Word
  index : Word
deriving DecidableEq, Repr

/-- The response record (rule R47). `result` is the one bit: `true` is 1. -/
structure Response where
  status : Status
  result : Bool
  family : List Beat
deriving DecidableEq, Repr

/-- What the host can do to the block (rule R10): present a command record, or apply reset between two steps (rule R103,
rule R105). -/
inductive HostAction where
  | command (c : Record)
  | reset
deriving DecidableEq, Repr

/-- The one argument of the step. `bits` is all the architectural state (rule R13). `params` are the build constants, which
rule R14 makes arguments of the step function: no command and no reset changes them (DESIGN CHOICE, safe, log entry 1).
`pending` is what the host has presented and the block has not yet taken, oldest first (DESIGN CHOICE, safe, log entry 4);
`responses` is what the block has given back, oldest first, and no command reads it (DESIGN CHOICE, safe, log entry 5). -/
structure State where
  params : Params
  bits : Memory
  pending : List HostAction
  responses : List Response
deriving DecidableEq, Repr

/-- Why a step can fault. No error of the spec is here: an error of a command is a response (rule R93). -/
inductive Fault where
  /-- A one-bit access to an index that is not below M, where `MemRead` and `MemWrite` are not defined (rule R11, rule
  R27). Raised by `memRead` and `memWrite`. Safe: every rule establishes the range first, so no command reaches it (DESIGN
  CHOICE, log entry 8). -/
  | noSuchCell (index : Nat)
deriving DecidableEq, Repr

/-- Why a step can be refused. -/
inductive Refusal where
  /-- The command of this mnemonic has no meaning in the model. Safe. Raised by no arm: all five commands are modelled. -/
  | notModelled (mnemonic : String)
deriving DecidableEq, Repr

/-- The state of a block with these constants right after reset: every cell 0 (rule R24, rule R104), nothing presented and
nothing given back. -/
def State.resetWith (p : Params) : State := { params := p, bits := [], pending := [], responses := [] }

/-- The state after reset that the host shows: `resetWith` at M = 48, K = 3 (DESIGN CHOICE, unsafe, log entry 3). -/
def State.reset : State := State.resetWith Params.scenario

end Sys2Proof.Machine
end

