-- ==== Sys2Proof/Machine/Operands.lean ====
section
/-! DEFINITION. The two addressing modes of rule R26: the direct index of SET and TEST with its range check, and the derived
indices of DERIVE, INSERT and QUERY, with the functions `Derive` (rule R57) and `IndexOf` (rule R59). -/

namespace Sys2Proof.Machine

/-- The direct index: the operand as it stands, an unsigned integer, not reduced modulo M (rule R26, rule R41). -/
def directIndex (x : Word) : Nat := x.toNat

/-- The range check of a direct index: it passes when index < M (rule R71). -/
def inRange (p : Params) (index : Nat) : Bool := decide (index < p.m)

/-- g_i = u64(h1 + i · h2), the sum taken as an unbounded integer and then wrapped (rule R57). -/
def derivedValue (h1 h2 : Word) (i : Nat) : Word := BitVec.ofNat 64 (h1.toNat + i * h2.toNat)

/-- `Derive(h1, h2, k)`: the ordered list g_1, ..., g_k, its counter starting at 1 (rule R57). Rule R57
defines it for k ≥ 1. At k = 0, which the spec leaves open (91_not_in_source.md N17) and no command reaches because K ≥ 1, the
total function gives the empty list: DESIGN CHOICE, unsafe, log entry 14. -/
def derive (h1 h2 : Word) (k : Nat) : List Word := (List.range k).map fun j => derivedValue h1 h2 (j + 1)

/-- `IndexOf(g)` = g mod M, of the wrapped value (rule R59, rule R61). -/
def indexOf (p : Params) (g : Word) : Nat := g.toNat % p.m

/-- The hash family of a pair on this block: `Derive` at k = K (rule R43, rule R64, rule R77). -/
def hashFamily (p : Params) (h1 h2 : Word) : List Word := derive h1 h2 p.k

/-- index_1, ..., index_K of a pair (rule R59), the list that INSERT sets and QUERY reads (rule R77). -/
def derivedIndices (p : Params) (h1 h2 : Word) : List Nat := (hashFamily p h1 h2).map (indexOf p)

/-- The beat (g, index) of a derived value; the index fits its 64 bits because it is below M ≤ 2^64 (rule R47, rule R48). -/
def beatOf (p : Params) (g : Word) : Beat := { g := g, index := BitVec.ofNat 64 (indexOf p g) }

/-- The K beats of DERIVE, in the order i = 1..K (rule R47, rule R64). -/
def derivedBeats (p : Params) (h1 h2 : Word) : List Beat := (hashFamily p h1 h2).map (beatOf p)

end Sys2Proof.Machine
end

