-- ==== Sys2Proof/Syntax.lean ====
section
/-! DEFINITION. The five commands of BFCORE (rule R44): one constructor per row of spec/opcode_table.json. -/

namespace Sys2Proof

/-- A decoded command with its operands. Format I commands carry one index, format H commands a hash pair (rule R40); the
reserved field `y` of format I is 0 in every decoded command, so it is no operand (rule R46). -/
inductive Instr where
  /-- SET index (rule R68). -/
  | set (index : Word)
  /-- TEST index (rule R69). -/
  | test (index : Word)
  /-- DERIVE h1, h2 (rule R64). -/
  | derive (h1 h2 : Word)
  /-- INSERT h1, h2 (rule R75). -/
  | insert (h1 h2 : Word)
  /-- QUERY h1, h2 (rule R76). -/
  | query (h1 h2 : Word)
deriving DecidableEq, Repr

end Sys2Proof
end

