-- ==== Sys2Proof/WellFormed.lean ====
section
/-! DEFINITION. When a command, and when a 136-bit record, is well formed: the operand ranges of rules R41 and R42 and the
match and mask rows of rule R44. -/

namespace Sys2Proof

/-- The operand ranges of rule R41 and rule R42. The operands' type already holds them, so every decoded command is well
formed; what can be ill formed is a record (`legalRecord`). -/
def Instr.wellFormed : Instr → Bool
  | .set index => decide (index.toNat < 2 ^ 64)
  | .test index => decide (index.toNat < 2 ^ 64)
  | .derive h1 h2 => decide (h1.toNat < 2 ^ 64 ∧ h2.toNat < 2 ^ 64)
  | .insert h1 h2 => decide (h1.toNat < 2 ^ 64 ∧ h2.toNat < 2 ^ 64)
  | .query h1 h2 => decide (h1.toNat < 2 ^ 64 ∧ h2.toNat < 2 ^ 64)

/-- The mnemonic of a command, as rule R44 spells it. -/
def Instr.mnemonic : Instr → String
  | .set _ => "SET"
  | .test _ => "TEST"
  | .derive _ _ => "DERIVE"
  | .insert _ _ => "INSERT"
  | .query _ _ => "QUERY"

/-- One row of the match and mask table of rule R44. -/
structure OpRow where
  mnemonic : String
  pattern : Record
  mask : Record
deriving DecidableEq, Repr

/-- The five rows of rule R44's match and mask table, digit for digit. -/
def opRows : List OpRow :=
  [ ⟨"SET", 0x0100000000000000000000000000000000#136, 0xFF0000000000000000FFFFFFFFFFFFFFFF#136⟩,
    ⟨"TEST", 0x0200000000000000000000000000000000#136, 0xFF0000000000000000FFFFFFFFFFFFFFFF#136⟩,
    ⟨"DERIVE", 0x0300000000000000000000000000000000#136, 0xFF00000000000000000000000000000000#136⟩,
    ⟨"INSERT", 0x0400000000000000000000000000000000#136, 0xFF00000000000000000000000000000000#136⟩,
    ⟨"QUERY", 0x0500000000000000000000000000000000#136, 0xFF00000000000000000000000000000000#136⟩ ]

/-- A record c selects the row when c AND mask = match (rule R44). -/
def OpRow.selects (r : OpRow) (c : Record) : Bool := c &&& r.mask == r.pattern

/-- A record is legal when it selects a row of rule R44; every other record is illegal (rule R45, rule R46, rule R51). -/
def legalRecord (c : Record) : Bool := opRows.any (·.selects c)

end Sys2Proof
end

