-- ==== Sys2Proof/Decode.lean ====
section
/-! DEFINITION. The decoder of rule R50, total on any 136 bits and rejecting by name, and after it the encoder of rules R39,
R40 and R44. Decoding reads no state and does not depend on M or K (rule R50). -/

namespace Sys2Proof

/-- Why a record is illegal (rule R86: reserved `op`, or `y` ≠ 0 in format I). Both are reported as IllegalCommand. -/
inductive DecodeError where
  /-- A value of `op` outside 0x01 to 0x05 (rule R45). -/
  | reservedOp (op : BitVec 8)
  /-- A format I record whose reserved field `y` is not 0 (rule R46). -/
  | reservedField (y : Word)
deriving DecidableEq, Repr

/-- The field `op`, bits 135:128 (rule R39). -/
def opField (c : Record) : BitVec 8 := c.extractLsb' 128 8

/-- The field `x`, bits 127:64 (rule R39). -/
def xField (c : Record) : Word := c.extractLsb' 64 64

/-- The field `y`, bits 63:0 (rule R39). -/
def yField (c : Record) : Word := c.extractLsb' 0 64

/-- Format I: `x` is the index and `y` is reserved and must be 0 (rule R40, rule R46). -/
def decodeIndexed (command : Word → Instr) (x y : Word) : Except DecodeError Instr :=
  if y = 0 then .ok (command x) else .error (.reservedField y)

/-- The decoder of rule R50. A reserved `op` is found before a reserved `y` (rule R92). -/
def decode (c : Record) : Except DecodeError Instr :=
  if opField c = 0x01 then decodeIndexed .set (xField c) (yField c)
  else if opField c = 0x02 then decodeIndexed .test (xField c) (yField c)
  else if opField c = 0x03 then .ok (.derive (xField c) (yField c))
  else if opField c = 0x04 then .ok (.insert (xField c) (yField c))
  else if opField c = 0x05 then .ok (.query (xField c) (yField c))
  else .error (.reservedOp (opField c))

/-- The record {op, x, y}: `op` in 135:128, `x` in 127:64, `y` in 63:0 (rule R39). -/
def recordOf (op : BitVec 8) (x y : Word) : Record :=
  op.setWidth 136 <<< 128 ||| x.setWidth 136 <<< 64 ||| y.setWidth 136

/-- The record of a command (rule R40, rule R44); format I always encodes `y` = 0 (rule R53). -/
def encode : Instr → Record
  | .set index => recordOf 0x01 index 0
  | .test index => recordOf 0x02 index 0
  | .derive h1 h2 => recordOf 0x03 h1 h2
  | .insert h1 h2 => recordOf 0x04 h1 h2
  | .query h1 h2 => recordOf 0x05 h1 h2

/-- The record whose bits, numbered as spec/opcode_table.json numbers them, are the low `nbits` bits of `w`, and 0 above
(DESIGN CHOICE, safe, log entry 9). -/
def tableRecord (nbits w : Nat) : Record := BitVec.ofNat 136 (w % 2 ^ nbits)

/-- The command the decoder reads from `tableRecord nbits w`; a number that needs more than 136 bits is no record (rule
R39). -/
def decodeTableWord (nbits w : Nat) : Option Instr :=
  if w % 2 ^ nbits < 2 ^ 136 then (decode (tableRecord nbits w)).toOption else none

end Sys2Proof
end

