-- ==== Sys2Proof/Machine/Flags.lean ====
section
/-! DEFINITION. BFCORE has no flags (rule R20). What a command reports is its response: the status codes of rule R87, the
one-bit `result` and the bit layout of rule R48. -/

namespace Sys2Proof.Machine

/-- The status codes (rule R87). -/
def Status.code : Status → BitVec 8
  | .ok => 0x00
  | .indexOutOfRange => 0x01
  | .illegalCommand => 0x02

/-- The status that reports an error (rule R86). -/
def CommandError.status : CommandError → Status
  | .indexOutOfRange => .indexOutOfRange
  | .illegalCommand => .illegalCommand

/-- The response to a command that succeeds (rule R49). -/
def Response.success (result : Bool) (family : List Beat) : Response :=
  { status := .ok, result := result, family := family }

/-- The response to a command that fails: its status, `result` 0 and an empty family (rule R11, rule R88, rule R89). -/
def Response.failure (e : CommandError) : Response := { status := e.status, result := false, family := [] }

/-- The one bit `result` as a bit vector. -/
def resultBit (b : Bool) : BitVec 1 := if b then 1 else 0

/-- The 16-bit header: `status` in 15:8, 0 in 7:1, `result` in bit 0 (rule R48). -/
def Response.header (r : Response) : BitVec 16 :=
  r.status.code.setWidth 16 <<< 8 ||| (resultBit r.result).setWidth 16

/-- The 128 bits of one beat: g in 127:64, the index in 63:0 (rule R48). -/
def Beat.layout (b : Beat) : BitVec 128 := b.g.setWidth 128 <<< 64 ||| b.index.setWidth 128

/-- The whole response as the port carries it: the header, then the beats, beat i = 1 first (rule R48, rule R56). -/
def Response.layout (r : Response) : BitVec 16 × List (BitVec 128) := (r.header, r.family.map Beat.layout)

end Sys2Proof.Machine
end

