-- ==== Sys2Proof/Machine/Ops.lean ====
section
/-! DEFINITION. The named operations every command is made of: the bit array's canonical form and its one-bit accesses
(`MemRead` and `MemWrite` of rule R11), `respond` and `raise` (rule R11), reset (rule R103), and taking what the host
presents. -/

namespace Sys2Proof.Machine

/-- What a cell that is not listed reads as: the spec's reset value, 0 (rule R24). -/
def Memory.unlisted : Bool := false

/-- The value of one cell: a listed cell holds 1. -/
def Memory.read (mem : Memory) (index : Nat) : Bool := if mem.contains index then true else Memory.unlisted

/-- List `index` at its place in rising order, once. -/
def Memory.list : Memory → Nat → Memory
  | [], index => [index]
  | a :: rest, index =>
    if index < a then index :: a :: rest
    else if index = a then a :: rest
    else a :: Memory.list rest index

/-- Drop `index` from the list. -/
def Memory.unlist (mem : Memory) (index : Nat) : Memory := mem.filter (· ≠ index)

/-- Make one cell hold `v`; writing what an unlisted cell reads as takes the cell off the list. -/
def Memory.write (mem : Memory) (index : Nat) (v : Bool) : Memory :=
  if v = Memory.unlisted then mem.unlist index else mem.list index

/-- The canonical form: indices strictly rising. -/
def Memory.wf : Memory → Bool
  | [] => true
  | [_] => true
  | a :: b :: rest => decide (a < b) && Memory.wf (b :: rest)

/-- Every listed cell is a cell of the array: its index is below M (rule R15, rule R27). -/
def Memory.within (mem : Memory) (size : Nat) : Bool := mem.all fun index => decide (index < size)

/-- `MemRead(index, 1)`, defined only for index < M (rule R11). -/
def memRead (s : State) (index : Nat) : Except Fault Bool :=
  if index < s.params.m then .ok (s.bits.read index) else .error (.noSuchCell index)

/-- `MemWrite(index, 1, v)`, defined only for index < M (rule R11). -/
def memWrite (s : State) (index : Nat) (v : Bool) : Except Fault State :=
  if index < s.params.m then .ok { s with bits := s.bits.write index v } else .error (.noSuchCell index)

/-- `MemWrite(index, 1, 1)` at each index of a list, in its order. -/
def setEach : State → List Nat → Except Fault State
  | s, [] => .ok s
  | s, index :: rest =>
    match memWrite s index true with
    | .ok t => setEach t rest
    | .error f => .error f

/-- The loop of rule R76: `all` drops to 0 at each cell that reads 0. -/
def allSet (s : State) : Bool → List Nat → Except Fault Bool
  | all, [] => .ok all
  | all, index :: rest =>
    match memRead s index with
    | .ok b => allSet s (if b = false then false else all) rest
    | .error f => .error f

/-- The block gives one response back (rule R33, rule R47). -/
def State.answer (s : State) (r : Response) : State := { s with responses := s.responses ++ [r] }

/-- `respond(0x00, result, family)` ends the step with a success response (rule R11, rule R49). -/
def respond (s : State) (result : Bool) (family : List Beat) : Host.Outcome State Fault Refusal :=
  .next (s.answer (Response.success result family))

/-- Taking an exception, as the spec has it: `raise <Error>` ends the step at once with the error's response and leaves the
state exactly as it was. No pc, status or mode is saved or changed and control goes nowhere (rule R11, rule R93). There is
nothing to return from: the next command runs as usual (rule R94, rule R95). -/
def raise (s : State) (e : CommandError) : Host.Outcome State Fault Refusal :=
  .next (s.answer (Response.failure e))

/-- Go on with the value of an access, or stop where the access is not defined. -/
def andThen {α : Type} (access : Except Fault α) (go : α → Host.Outcome State Fault Refusal) :
    Host.Outcome State Fault Refusal :=
  match access with
  | .ok a => go a
  | .error f => .fault f

/-- Reset: every cell 0, M and K as they were, no response (rule R103, rule R104). What the host has already received, and
what it presents afterwards, is the host's (DEDUCED, safe, log entry 7). -/
def applyReset (s : State) : State := { s with bits := [] }

/-- What the block takes next: the oldest action the host has presented, and the state without it (rule R33, rule R113).
`none` when the host has presented nothing. -/
def takeAction (s : State) : Option (HostAction × State) :=
  match s.pending with
  | [] => none
  | a :: rest => some (a, { s with pending := rest })

/-- The host presents one more action, after those already presented (rule R10, rule R19). -/
def State.present (s : State) (a : HostAction) : State := { s with pending := s.pending ++ [a] }

/-- The host presents one action ahead of those already presented. -/
def State.presentNext (s : State) (a : HostAction) : State := { s with pending := a :: s.pending }

end Sys2Proof.Machine
end

