-- ==== Sys2Proof/Machine/BitArray.lean ====
section
/-! DEFINITION. The bit-array commands SET and TEST (41_bit_array.md). The check `y` ≠ 0 stands in the decoder (rule R92). -/

namespace Sys2Proof.Machine

/-- SET index (rule R68). -/
def execSet (index : Word) (s : State) : Host.Outcome State Fault Refusal :=
  if inRange s.params (directIndex index) then
    andThen (memWrite s (directIndex index) true) fun t => respond t false []
  else raise s .indexOutOfRange

/-- TEST index (rule R69). -/
def execTest (index : Word) (s : State) : Host.Outcome State Fault Refusal :=
  if inRange s.params (directIndex index) then
    andThen (memRead s (directIndex index)) fun b => respond s b []
  else raise s .indexOutOfRange

end Sys2Proof.Machine
end

