-- ==== Sys2Proof/Machine/Composed.lean ====
section
/-! DEFINITION. The composed commands INSERT and QUERY (42_composed.md). -/

namespace Sys2Proof.Machine

/-- INSERT h1, h2 (rule R75). -/
def execInsert (h1 h2 : Word) (s : State) : Host.Outcome State Fault Refusal :=
  andThen (setEach s (derivedIndices s.params h1 h2)) fun t => respond t false []

/-- QUERY h1, h2 (rule R76). -/
def execQuery (h1 h2 : Word) (s : State) : Host.Outcome State Fault Refusal :=
  andThen (allSet s true (derivedIndices s.params h1 h2)) fun all => respond s all []

end Sys2Proof.Machine
end

