-- ==== Sys2Proof/Machine/Deriver.lean ====
section
/-! DEFINITION. The command DERIVE (40_hash_deriver.md). -/

namespace Sys2Proof.Machine

/-- DERIVE h1, h2 (rule R64): it reads and writes no cell. -/
def execDerive (h1 h2 : Word) (s : State) : Host.Outcome State Fault Refusal :=
  respond s false (derivedBeats s.params h1 h2)

end Sys2Proof.Machine
end

