-- ==== Sys2Proof/Machine/Dispatch.lean ====
section
/-! DEFINITION. One arm per command. -/

namespace Sys2Proof.Machine

def exec (i : Instr) (s : State) : Host.Outcome State Fault Refusal :=
  match i with
  | .set index => Sys2Proof.Machine.execSet index s
  | .test index => Sys2Proof.Machine.execTest index s
  | .derive h1 h2 => Sys2Proof.Machine.execDerive h1 h2 s
  | .insert h1 h2 => Sys2Proof.Machine.execInsert h1 h2 s
  | .query h1 h2 => Sys2Proof.Machine.execQuery h1 h2 s

end Sys2Proof.Machine
end

