-- ==== Sys2Proof/Machine/Step.lean ====
section
/-! DEFINITION. The step: one whole command, or one reset, per step (rule R9, rule R103). -/

namespace Sys2Proof.Machine

/-- One step. The block takes the oldest action the host has presented. A record that decodes is executed; one that does not
raises IllegalCommand (rule R89). Reset is a transition between two commands (rule R103, rule R105). With nothing presented
the block waits, and nothing changes (rule R106; DESIGN CHOICE, safe, log entry 4). -/
def step (s : State) : Host.Outcome State Fault Refusal :=
  match takeAction s with
  | none => .next s
  | some (.reset, t) => .next (applyReset t)
  | some (.command c, t) =>
    match decode c with
    | .ok i => exec i t
    | .error _ => raise t .illegalCommand

/-- `s` with the command record of `nbits` and `w` presented so that the very next step takes it (DESIGN CHOICE,
safe, log entry 9). -/
def State.withFetchWord (s : State) (nbits w : Nat) : State := s.presentNext (.command (tableRecord nbits w))

end Sys2Proof.Machine
end

