-- ==== Sys2Proof/Machine/Written.lean ====
section
/-! DEFINITION. The written form of commands, records, headers and beats (rules R11, R39, R48, R53). Nothing in the machine
reads it; text is a list of characters. What rule R53 leaves open is chosen as log entry 10 says
(DESIGN CHOICE, safe). -/

namespace Sys2Proof.Machine

/-- The character of one hexadecimal digit, capitals from ten on. -/
def hexChar (n : Nat) : Char := if n < 10 then Char.ofNat (48 + n) else Char.ofNat (55 + n)

/-- `v` as exactly `digits` hexadecimal digits, the most significant first. -/
def hexText : Nat → Nat → List Char
  | 0, _ => []
  | digits + 1, v => hexText digits (v / 16) ++ [hexChar (v % 16)]

/-- The value of one digit character, of either letter case. -/
def digitValue (c : Char) : Option Nat :=
  if '0'.toNat ≤ c.toNat ∧ c.toNat ≤ '9'.toNat then some (c.toNat - '0'.toNat)
  else if 'A'.toNat ≤ c.toNat ∧ c.toNat ≤ 'F'.toNat then some (c.toNat - 'A'.toNat + 10)
  else if 'a'.toNat ≤ c.toNat ∧ c.toNat ≤ 'f'.toNat then some (c.toNat - 'a'.toNat + 10)
  else none

/-- The number written by digits of a base, after what has been read so far. -/
def digitsValue (base : Nat) : Nat → List Char → Option Nat
  | acc, [] => some acc
  | acc, c :: rest =>
    match digitValue c with
    | some d => if d < base then digitsValue base (acc * base + d) rest else none
    | none => none

/-- Underscores in a numeral are separators only (rule R11). -/
def withoutSeparators (text : List Char) : List Char := text.filter (· ≠ '_')

/-- The number of a numeral: `0x` opens a hexadecimal one, any other is decimal; it has at least one digit (rule R11). -/
def numeralValue : List Char → Option Nat
  | '0' :: 'x' :: rest => if withoutSeparators rest = [] then none else digitsValue 16 0 (withoutSeparators rest)
  | text => if withoutSeparators text = [] then none else digitsValue 10 0 (withoutSeparators text)

/-- An operand: a numeral below 2^64 (rule R53). -/
def operandValue (text : List Char) : Option Word :=
  match numeralValue text with
  | some n => if n < 2 ^ 64 then some (BitVec.ofNat 64 n) else none
  | none => none

/-- Space between the parts of a line. -/
def isBlank (c : Char) : Bool := c == ' ' || c == '\t'

/-- A text without the space at its two ends. -/
def trimBlanks (text : List Char) : List Char := ((text.dropWhile isBlank).reverse.dropWhile isBlank).reverse

/-- The parts of a text between the places where `sep` stands. -/
def splitOnChar (sep : Char) : List Char → List (List Char)
  | [] => [[]]
  | c :: rest =>
    if c = sep then [] :: splitOnChar sep rest
    else
      match splitOnChar sep rest with
      | [] => [[c]]
      | part :: parts => (c :: part) :: parts

/-- One operand, for the commands of format I. -/
def oneOperand (command : Word → Instr) : List (List Char) → Option Instr
  | [a] =>
    match operandValue a with
    | some x => some (command x)
    | none => none
  | _ => none

/-- Two operands, for the commands of format H. -/
def twoOperands (command : Word → Word → Instr) : List (List Char) → Option Instr
  | [a, b] =>
    match operandValue a, operandValue b with
    | some x, some y => some (command x y)
    | _, _ => none
  | _ => none

/-- The command of a mnemonic in capitals and its operands (rule R53). -/
def commandOf (mnemonic : List Char) (operands : List (List Char)) : Option Instr :=
  if mnemonic = ['S', 'E', 'T'] then oneOperand .set operands
  else if mnemonic = ['T', 'E', 'S', 'T'] then oneOperand .test operands
  else if mnemonic = ['D', 'E', 'R', 'I', 'V', 'E'] then twoOperands .derive operands
  else if mnemonic = ['I', 'N', 'S', 'E', 'R', 'T'] then twoOperands .insert operands
  else if mnemonic = ['Q', 'U', 'E', 'R', 'Y'] then twoOperands .query operands
  else none

/-- A line without its comment and the space around it; text after `#` is a comment (rule R53). -/
def lineText (line : List Char) : List Char := trimBlanks (line.takeWhile (· ≠ '#'))

/-- Read one line: the mnemonic, then the operands separated by a comma (rule R53). `none` for a line that is no command. -/
def parseLine (line : List Char) : Option Instr :=
  commandOf ((lineText line).takeWhile (!isBlank ·))
    ((splitOnChar ',' ((lineText line).dropWhile (!isBlank ·))).map trimBlanks)

/-- Read lines, one command per line; a line that holds nothing but a comment is no command and is passed over. -/
def parseLines : List (List Char) → Option (List Instr)
  | [] => some []
  | line :: rest =>
    if lineText line = [] then parseLines rest
    else
      match parseLine line, parseLines rest with
      | some i, some is => some (i :: is)
      | _, _ => none

/-- Read a program text: a finite list of commands, in the order they are written (rule R19, rule R53). -/
def parseProgram (text : List Char) : Option (List Instr) := parseLines (splitOnChar '\n' text)

/-- An operand as a `0x` numeral of 16 digits. -/
def operandText (x : Word) : List Char := ['0', 'x'] ++ hexText 16 x.toNat

/-- The written form of a command (rule R53). -/
def written : Instr → List Char
  | .set index => ['S', 'E', 'T', ' '] ++ operandText index
  | .test index => ['T', 'E', 'S', 'T', ' '] ++ operandText index
  | .derive h1 h2 => ['D', 'E', 'R', 'I', 'V', 'E', ' '] ++ operandText h1 ++ [',', ' '] ++ operandText h2
  | .insert h1 h2 => ['I', 'N', 'S', 'E', 'R', 'T', ' '] ++ operandText h1 ++ [',', ' '] ++ operandText h2
  | .query h1 h2 => ['Q', 'U', 'E', 'R', 'Y', ' '] ++ operandText h1 ++ [',', ' '] ++ operandText h2

/-- A record as 34 hexadecimal digits, `op` first, in the form 0x op _ x _ y (rule R39). -/
def recordText (c : Record) : List Char :=
  ['0', 'x'] ++ hexText 2 (opField c).toNat ++ ['_'] ++ hexText 16 (xField c).toNat ++ ['_'] ++ hexText 16 (yField c).toNat

/-- The record of a text of 34 hexadecimal digits (rule R39). -/
def parseRecord : List Char → Option Record
  | '0' :: 'x' :: rest =>
    if (withoutSeparators rest).length = 34 then
      match digitsValue 16 0 (withoutSeparators rest) with
      | some n => some (BitVec.ofNat 136 n)
      | none => none
    else none
  | _ => none

/-- A header as four hexadecimal digits (rule R48). -/
def headerText (r : Response) : List Char := ['0', 'x'] ++ hexText 4 r.header.toNat

/-- A beat as its 128 bits, in the form 0x g _ index of 95_test_vectors.md (rule R48). -/
def beatText (b : Beat) : List Char := ['0', 'x'] ++ hexText 16 b.g.toNat ++ ['_'] ++ hexText 16 b.index.toNat

end Sys2Proof.Machine
end

