-- ==== Sys2Proof/Safety.lean ====
section
/-! DEFINITION. What claims are stated in: the invariant of the bit array, the shape of a response, a run of commands and its
outcome (rule R116), and what a command is allowed to touch. -/

namespace Sys2Proof.Machine

/-- The invariant of the bit array: its list is in canonical form, and every listed index is below M (rule R15, rule R27). -/
abbrev State.Inv (s : State) : Prop := s.bits.wf = true ∧ s.bits.within s.params.m = true

/-- The shape every response has on a block (rule R47, rule R49): an error carries `result` 0 and no beat; a success carries
no beat or exactly K beats; the index of each beat is its g mod M. -/
abbrev Response.WellShaped (p : Params) (r : Response) : Prop :=
  (r.status ≠ .ok → r.result = false ∧ r.family = []) ∧
  (r.family = [] ∨ (r.family.length = p.k ∧ r.result = false)) ∧
  ∀ b ∈ r.family, b.index.toNat = b.g.toNat % p.m

/-- The index a command stores to, when it stores: the direct index of SET, in range, or a derived index of INSERT (rule
R17). The expressions are those the meanings use. -/
def storesTo (p : Params) : Instr → Nat → Bool
  | .set index, a => inRange p (directIndex index) && a == directIndex index
  | .insert h1 h2, a => (derivedIndices p h1 h2).contains a
  | .test _, _ => false
  | .derive _ _, _ => false
  | .query _ _, _ => false

/-- The index a record stores to: none when the record is illegal (rule R89). -/
def recordStoresTo (p : Params) (c : Record) (a : Nat) : Bool :=
  match decode c with
  | .ok i => storesTo p i a
  | .error _ => false

/-- Present exactly these actions to a block and let it take them all, one per step. -/
def runActions (s : State) (actions : List HostAction) : Host.Outcome State Fault Refusal :=
  Host.Core.run Sys2Proof.core actions.length { s with pending := actions }

/-- Present exactly these command records to a block and let it take them all (rule R19). -/
def runCommands (s : State) (cs : List Record) : Host.Outcome State Fault Refusal :=
  runActions s (cs.map .command)

/-- A run: a reset, then a finite list of commands (rule R116). -/
def runFromReset (p : Params) (cs : List Record) : Host.Outcome State Fault Refusal :=
  runCommands (State.resetWith p) cs

/-- The outcome of a run: the responses in order and the final `bits` (rule R116); `none` when the run stopped early. -/
def runOutcome (p : Params) (cs : List Record) : Option (List Response × Memory) :=
  match runFromReset p cs with
  | .next s => some (s.responses, s.bits)
  | .fault _ => none
  | .refused _ => none

end Sys2Proof.Machine
end

