-- ==== Sys2Proof/Certificates/Slice0/Obligations.lean ====
section
/-! DEFINITION. The statements for the provers. Each docstring names the rule of spec/ it formalises. -/

open Sys2Proof Sys2Proof.Machine

/-! ## Encoding (30_encoding.md) -/

/-- Rules R39, R40, R44: no bit of a command is dropped. Every well-formed command decodes from its own record. -/
def Obligations.DecodeOfEncodeIsTheCommand : Prop :=
  ∀ i : Instr, i.wellFormed = true → decode (encode i) = .ok i

/-- Rules R39, R44, R46: a record that decodes is the encoding of what it decodes to, so no two records mean one command. -/
def Obligations.EncodeOfDecodeIsTheRecord : Prop :=
  ∀ (c : Record) (i : Instr), decode c = .ok i → encode i = c

/-- Rule R50, clause by clause: every record is op·2^128 + x·2^64 + y, what each decodes to, and that no record selects two
rows. That decoding reads no state, M or K is the type of `decode`. -/
def Obligations.DecodeFollowsItsTable : Prop :=
  (∀ (c : Record) (r q : OpRow), r ∈ opRows → q ∈ opRows → r.selects c = true → q.selects c = true → r = q) ∧
  (∀ c : Record, ∃ (op : BitVec 8) (x y : Word),
    c.toNat = op.toNat * 2 ^ 128 + x.toNat * 2 ^ 64 + y.toNat) ∧
  ∀ (op : BitVec 8) (x y : Word) (c : Record),
    c.toNat = op.toNat * 2 ^ 128 + x.toNat * 2 ^ 64 + y.toNat →
    (op = 0x01 → y = 0 → decode c = .ok (.set x)) ∧
    (op = 0x02 → y = 0 → decode c = .ok (.test x)) ∧
    (op = 0x03 → decode c = .ok (.derive x y)) ∧
    (op = 0x04 → decode c = .ok (.insert x y)) ∧
    (op = 0x05 → decode c = .ok (.query x y)) ∧
    ((op = 0x01 ∨ op = 0x02) → y ≠ 0 → decode c = .error (.reservedField y)) ∧
    ((op.toNat = 0 ∨ 6 ≤ op.toNat) → decode c = .error (.reservedOp op))

/-- Rule R44 and rule R50: the decoder reads the command of the one match and mask row a record selects, and refuses a record
that selects none. -/
def Obligations.DecodeReadsTheOneRowSelected : Prop :=
  (∀ (c : Record) (i : Instr), decode c = .ok i →
    ∃ r ∈ opRows, r.selects c = true ∧ r.mnemonic = i.mnemonic) ∧
  ∀ (c : Record) (e : DecodeError), decode c = .error e → ∀ r ∈ opRows, r.selects c = false

/-- Records of 95_test_vectors.md section 2.1 (V-E1 to V-E6, V-E9), written out digit by digit. -/
def Obligations.SampleRecordsDecode : Prop :=
  decode 0x01000000000000000C0000000000000000#136 = .ok (.set 12) ∧
  decode 0x02000000000000000C0000000000000000#136 = .ok (.test 12) ∧
  decode 0x0300000000000000050000000000000007#136 = .ok (.derive 5 7) ∧
  decode 0x040123456789ABCDEFFEDCBA9876543210#136 = .ok (.insert 0x0123456789ABCDEF 0xFEDCBA9876543210) ∧
  decode 0x05FFFFFFFFFFFFFFFFFFFFFFFFFFFFFFFF#136 = .ok (.query 0xFFFFFFFFFFFFFFFF 0xFFFFFFFFFFFFFFFF) ∧
  decode 0x0000000000000000000000000000000000#136 = .error (.reservedOp 0) ∧
  decode 0x01000000000000002F0000000000000001#136 = .error (.reservedField 1)

/-- Rule R53 and rule R39: a command is read back from its written form, and a record from its 34 hexadecimal digits. The
choices the written form leaves open are the model's (log entry 10). -/
def Obligations.WrittenFormReadsBack : Prop :=
  (∀ i : Instr, parseLine (written i) = some i) ∧ ∀ c : Record, parseRecord (recordText c) = some c

/-! ## Errors (60_exceptions.md) -/

/-- Rules R45, R46, R89: IllegalCommand is the answer exactly to a reserved `op` and to a format I record with `y` ≠ 0; the
record is not executed and only its response is added. -/
def Obligations.IllegalCommandExactly : Prop :=
  ∀ (s : State) (c : Record) (rest : List HostAction), s.pending = .command c :: rest →
    ∃ (t : State) (r : Response), step s = .next t ∧ t.responses = s.responses ++ [r] ∧
      (r.status = .illegalCommand ↔
        ((c.toNat / 2 ^ 128 = 0 ∨ 6 ≤ c.toNat / 2 ^ 128) ∨
          ((c.toNat / 2 ^ 128 = 1 ∨ c.toNat / 2 ^ 128 = 2) ∧ c.toNat % 2 ^ 64 ≠ 0))) ∧
      (r.status = .illegalCommand →
        r = ⟨.illegalCommand, false, []⟩ ∧ t.bits = s.bits ∧ t.params = s.params ∧ t.pending = rest)

/-- Rules R71, R88: IndexOutOfRange is the answer exactly to SET and TEST with an index ≥ M, compared as it stands; no cell
changes; at M = 2^64 it cannot occur. -/
def Obligations.IndexOutOfRangeExactly : Prop :=
  (∀ (s : State) (c : Record) (rest : List HostAction), s.pending = .command c :: rest →
    ∃ (t : State) (r : Response), step s = .next t ∧ t.responses = s.responses ++ [r] ∧
      (r.status = .indexOutOfRange ↔
        ∃ x : Word, (decode c = .ok (.set x) ∨ decode c = .ok (.test x)) ∧ s.params.m ≤ x.toNat)) ∧
  ∀ (i : Instr) (s : State), ∃ (t : State) (r : Response), exec i s = .next t ∧ t.responses = s.responses ++ [r] ∧
    (r.status = .indexOutOfRange ↔ ∃ x : Word, (i = .set x ∨ i = .test x) ∧ s.params.m ≤ x.toNat) ∧
    (r.status = .indexOutOfRange →
      r = ⟨.indexOutOfRange, false, []⟩ ∧ t.bits = s.bits ∧ t.params = s.params ∧ t.pending = s.pending) ∧
    (s.params.m = 2 ^ 64 → r.status ≠ .indexOutOfRange)

/-- Rule R92: the one error a command reports, in the order reserved `op`, reserved `y`, index ≥ M. -/
def Obligations.ErrorPriority : Prop :=
  ∀ (s : State) (op : BitVec 8) (x y : Word) (rest : List HostAction),
    s.pending = .command (recordOf op x y) :: rest →
    ∃ (t : State) (r : Response), step s = .next t ∧ t.responses = s.responses ++ [r] ∧
      r.status =
        if op.toNat = 0 ∨ 6 ≤ op.toNat then .illegalCommand
        else if (op = 0x01 ∨ op = 0x02) ∧ y ≠ 0 then .illegalCommand
        else if (op = 0x01 ∨ op = 0x02) ∧ s.params.m ≤ x.toNat then .indexOutOfRange
        else .ok

/-- Rule R90: no other failure exists. Every record is taken and answered once; DERIVE, INSERT and QUERY succeed for every
operand pair, SET and TEST for every index below M. -/
def Obligations.EveryCommandIsAnswered : Prop :=
  ∀ (s : State) (c : Record) (rest : List HostAction), s.pending = .command c :: rest →
    ∃ (t : State) (r : Response), step s = .next t ∧ t.pending = rest ∧ t.responses = s.responses ++ [r] ∧
      (∀ h1 h2, decode c = .ok (.derive h1 h2) ∨ decode c = .ok (.insert h1 h2) ∨ decode c = .ok (.query h1 h2) →
        r.status = .ok) ∧
      (∀ x : Word, decode c = .ok (.set x) ∨ decode c = .ok (.test x) → x.toNat < s.params.m → r.status = .ok)

/-- Rule R94: after an error the next commands run as if the failed command had not been sent. The same list of commands, with
and without a failing command in front, leaves the same cells and gets the same responses. -/
def Obligations.FailedCommandLeavesNoTrace : Prop :=
  ∀ (s : State) (c : Record) (cs : List Record),
    ∃ (t u : State) (r : Response) (rs qs : List Response),
      runCommands s (c :: cs) = .next t ∧ runCommands s cs = .next u ∧
      t.responses = s.responses ++ r :: rs ∧ u.responses = s.responses ++ qs ∧
      (r.status ≠ .ok → t.bits = u.bits ∧ rs = qs)

/-! ## SET and TEST (41_bit_array.md) -/

/-- Rule R68, SET index: in range, the one cell becomes 1 and no other cell changes; out of range, or with `y` ≠ 0, the error
is reported and nothing else happens. -/
def Obligations.SetCommand : Prop :=
  (∀ (s : State) (x : Word), x.toNat < s.params.m →
    ∃ t : State, exec (.set x) s = .next t ∧ t.params = s.params ∧ t.pending = s.pending ∧
      t.responses = s.responses ++ [⟨.ok, false, []⟩] ∧
      ∀ a : Nat, t.bits.read a = if a = x.toNat then true else s.bits.read a) ∧
  (∀ (s : State) (x : Word), s.params.m ≤ x.toNat →
    exec (.set x) s = .next { s with responses := s.responses ++ [⟨.indexOutOfRange, false, []⟩] }) ∧
  (∀ x : Word, decode (recordOf 0x01 x 0) = .ok (.set x)) ∧
  ∀ (s : State) (x y : Word) (rest : List HostAction), y ≠ 0 → s.pending = .command (recordOf 0x01 x y) :: rest →
    step s = .next { s with pending := rest, responses := s.responses ++ [⟨.illegalCommand, false, []⟩] }

/-- Rule R69, TEST index: in range, the response carries the cell and nothing changes; out of range, or with `y` ≠ 0, the
error is reported and nothing else happens; after reset every TEST in range answers 0. -/
def Obligations.TestCommand : Prop :=
  (∀ (s : State) (x : Word), x.toNat < s.params.m →
    exec (.test x) s = .next { s with responses := s.responses ++ [⟨.ok, s.bits.read x.toNat, []⟩] }) ∧
  (∀ (s : State) (x : Word), s.params.m ≤ x.toNat →
    exec (.test x) s = .next { s with responses := s.responses ++ [⟨.indexOutOfRange, false, []⟩] }) ∧
  (∀ x : Word, decode (recordOf 0x02 x 0) = .ok (.test x)) ∧
  (∀ (p : Params) (x : Word), x.toNat < p.m →
    exec (.test x) (State.resetWith p) = .next { State.resetWith p with responses := [⟨.ok, false, []⟩] }) ∧
  ∀ (s : State) (x y : Word) (rest : List HostAction), y ≠ 0 → s.pending = .command (recordOf 0x02 x y) :: rest →
    step s = .next { s with pending := rest, responses := s.responses ++ [⟨.illegalCommand, false, []⟩] }

/-- Rule R70: SET is idempotent and SET commands commute, from every state and for every index. -/
def Obligations.SetIdempotentAndCommutes : Prop :=
  (∀ (s : State) (a : Word), ∃ t u : State,
    runCommands s [encode (.set a)] = .next t ∧ runCommands s [encode (.set a), encode (.set a)] = .next u ∧
    u.bits = t.bits ∧ u.params = t.params ∧
    (a.toNat < s.params.m → u.responses = s.responses ++ [⟨.ok, false, []⟩, ⟨.ok, false, []⟩])) ∧
  ∀ (s : State) (a b : Word), ∃ t u : State,
    runCommands s [encode (.set a), encode (.set b)] = .next t ∧
    runCommands s [encode (.set b), encode (.set a)] = .next u ∧ u.bits = t.bits ∧ u.params = t.params

/-- Rule R73: a TEST after a successful SET of its index reads 1 whatever commands come between, and from reset it reads 0
until a command stores to that index. -/
def Obligations.TestReadsWhatWasSet : Prop :=
  (∀ (s : State) (x : Word) (cs : List Record), x.toNat < s.params.m →
    ∃ t : State, runCommands s (encode (.set x) :: cs ++ [encode (.test x)]) = .next t ∧
      t.responses.getLast? = some ⟨.ok, true, []⟩) ∧
  ∀ (p : Params) (x : Word) (cs : List Record), x.toNat < p.m →
    (∀ c ∈ cs, decode c ≠ .ok (.set x) ∧ ∀ h1 h2 : Word, decode c = .ok (.insert h1 h2) →
      ∀ i : Nat, 1 ≤ i → i ≤ p.k → (h1.toNat + i * h2.toNat) % 2 ^ 64 % p.m ≠ x.toNat) →
    ∃ t : State, runFromReset p (cs ++ [encode (.test x)]) = .next t ∧
      t.responses.getLast? = some ⟨.ok, false, []⟩

/-! ## The deriver (40_hash_deriver.md) -/

/-- Rule R64, DERIVE h1, h2: K beats (g_i, index_i) in the order i = 1..K, and nothing else changes. -/
def Obligations.DeriveCommand : Prop :=
  (∀ h1 h2 : Word, decode (recordOf 0x03 h1 h2) = .ok (.derive h1 h2)) ∧
  ∀ (s : State) (h1 h2 : Word), ∃ family : List Beat,
    exec (.derive h1 h2) s = .next { s with responses := s.responses ++ [⟨.ok, false, family⟩] } ∧
    family.length = s.params.k ∧
    ∀ i : Nat, 1 ≤ i → i ≤ s.params.k → ∃ b : Beat, family[i - 1]? = some b ∧
      b.g.toNat = (h1.toNat + i * h2.toNat) % 2 ^ 64 ∧
      b.index.toNat = (h1.toNat + i * h2.toNat) % 2 ^ 64 % s.params.m

/-- Rule R61, reducing early or late: the value of rule R57 is the 64-bit sum of h1 and the 64-bit product, and the list may be
accumulated, g_1 = h1 + h2 and g_(i+1) = g_i + h2. The case k = 0 of the second clause is g_1 alone, and writes its empty tail
as `derive` at 0, the model's choice (log entry 14). -/
def Obligations.DeriveAccumulates : Prop :=
  (∀ (h1 h2 : Word) (i : Nat), derivedValue h1 h2 i = h1 + BitVec.ofNat 64 i * h2) ∧
  ∀ (h1 h2 : Word) (k : Nat), derive h1 h2 (k + 1) = (h1 + h2) :: derive (h1 + h2) h2 k

/-- 90_conflicts.md C2 with rule R57: the values of a smaller count are the first ones of the larger count. Rule
R57 defines them for counts from 1 on; that the case k = 0 is the empty list is the model's choice (log entry 14). -/
def Obligations.DeriveOfFewerIsAPrefix : Prop :=
  ∀ (h1 h2 : Word) (k n : Nat), k ≤ n → (derive h1 h2 n).take k = derive h1 h2 k

/-- Rule R60: every derived index is a valid bit index. -/
def Obligations.DerivedIndexIsACell : Prop :=
  ∀ (p : Params) (g : Word), indexOf p g < p.m

/-- Rule R61 and rule R66: at M = 2^b the index is the low b bits of g, all of g at b = 64 and 0 at b = 0. -/
def Obligations.PowerOfTwoIndexIsLowBits : Prop :=
  ∀ (p : Params) (b : Nat) (g : Word), p.m = 2 ^ b → ∀ j : Nat, (indexOf p g).testBit j = (decide (j < b) && g.getLsbD j)

/-- Rule R65: DERIVE has no effect on any later command, and two DERIVE commands with the same operands get the same response,
whatever commands and resets lie between. The same actions without the two DERIVEs leave the same cells and get the same
responses. -/
def Obligations.DeriveRepeats : Prop :=
  ∀ (s : State) (h1 h2 : Word) (between : List HostAction),
    ∃ (t u : State) (r : Response) (rs : List Response),
      runActions s (.command (encode (.derive h1 h2)) :: between ++ [.command (encode (.derive h1 h2))]) = .next t ∧
      runActions s between = .next u ∧ t.bits = u.bits ∧
      u.responses = s.responses ++ rs ∧ t.responses = s.responses ++ (r :: rs ++ [r])

/-! ## INSERT and QUERY (42_composed.md) -/

/-- Rule R75, INSERT h1, h2: the K cells (h1 + i·h2 mod 2^64) mod M become 1, and nothing else changes. -/
def Obligations.InsertCommand : Prop :=
  (∀ h1 h2 : Word, decode (recordOf 0x04 h1 h2) = .ok (.insert h1 h2)) ∧
  ∀ (s : State) (h1 h2 : Word), ∃ t : State, exec (.insert h1 h2) s = .next t ∧
    t.params = s.params ∧ t.pending = s.pending ∧ t.responses = s.responses ++ [⟨.ok, false, []⟩] ∧
    ∀ a : Nat, t.bits.read a = true ↔
      s.bits.read a = true ∨
        ∃ i : Nat, 1 ≤ i ∧ i ≤ s.params.k ∧ a = (h1.toNat + i * h2.toNat) % 2 ^ 64 % s.params.m

/-- Rule R76, QUERY h1, h2: `result` is 1 exactly when all K cells are 1, and nothing changes; after reset it is 0. -/
def Obligations.QueryCommand : Prop :=
  (∀ h1 h2 : Word, decode (recordOf 0x05 h1 h2) = .ok (.query h1 h2)) ∧
  (∀ (p : Params) (h1 h2 : Word),
    exec (.query h1 h2) (State.resetWith p) = .next { State.resetWith p with responses := [⟨.ok, false, []⟩] }) ∧
  ∀ (s : State) (h1 h2 : Word), ∃ all : Bool,
    exec (.query h1 h2) s = .next { s with responses := s.responses ++ [⟨.ok, all, []⟩] } ∧
    (all = true ↔
      ∀ i : Nat, 1 ≤ i → i ≤ s.params.k → s.bits.read ((h1.toNat + i * h2.toNat) % 2 ^ 64 % s.params.m) = true)

/-- Rule R78: no false negatives. From every state, after INSERT h1, h2 and then any list of commands without a reset, QUERY
h1, h2 gets `result` = 1. -/
def Obligations.NoFalseNegatives : Prop :=
  ∀ (s : State) (h1 h2 : Word) (cs : List Record), ∃ t : State,
    runCommands s (encode (.insert h1 h2) :: cs ++ [encode (.query h1 h2)]) = .next t ∧
    t.responses.getLast? = some ⟨.ok, true, []⟩

/-- Rule R84: INSERT leaves the cells that the K SETs of DERIVE's indices leave, in any order, and QUERY's `result` is the AND
of the K TESTs of those indices. -/
def Obligations.ComposedEqualElementary : Prop :=
  ∀ (s : State) (h1 h2 : Word), ∃ family : List Beat,
    exec (.derive h1 h2) s = .next { s with responses := s.responses ++ [⟨.ok, false, family⟩] } ∧
    (∀ order : List Word, order.Perm (family.map (·.index)) → ∃ t u : State,
      exec (.insert h1 h2) s = .next t ∧ runCommands s (order.map fun x => encode (.set x)) = .next u ∧
      u.bits = t.bits) ∧
    ∃ (t u : State) (all : Bool) (rs : List Response),
      exec (.query h1 h2) s = .next t ∧ t.responses = s.responses ++ [⟨.ok, all, []⟩] ∧
      runCommands s (family.map fun b => encode (.test b.index)) = .next u ∧
      u.responses = s.responses ++ rs ∧ rs.length = s.params.k ∧ all = rs.all (·.result)

/-- Rule R80 and rule R66, h2 = 0: the K derived indices coincide; INSERT sets the one cell h1 mod M and QUERY reads it. -/
def Obligations.ZeroStrideTouchesOneCell : Prop :=
  ∀ (s : State) (h1 : Word),
    (∃ t : State, exec (.insert h1 0) s = .next t ∧
      ∀ a : Nat, t.bits.read a = if a = h1.toNat % s.params.m then true else s.bits.read a) ∧
    exec (.query h1 0) s =
      .next { s with responses := s.responses ++ [⟨.ok, s.bits.read (h1.toNat % s.params.m), []⟩] }

/-- Rule R79: QUERY's response is a function of its operands, M, K and the cells, and two QUERYs with the same operands and no
successful SET or INSERT between them get the same `result`. -/
def Obligations.QueryRepeats : Prop :=
  (∀ (s q : State) (h1 h2 : Word), s.params = q.params → s.bits = q.bits → ∃ (t u : State) (r : Response),
    exec (.query h1 h2) s = .next t ∧ exec (.query h1 h2) q = .next u ∧
    t.responses = s.responses ++ [r] ∧ u.responses = q.responses ++ [r]) ∧
  ∀ (s : State) (h1 h2 : Word) (cs : List Record),
    (∀ c ∈ cs, (∀ x : Word, decode c = .ok (.set x) → s.params.m ≤ x.toNat) ∧
      ∀ g1 g2 : Word, decode c ≠ .ok (.insert g1 g2)) →
    ∃ (t : State) (r : Response) (rs : List Response),
      runCommands s (encode (.query h1 h2) :: cs ++ [encode (.query h1 h2)]) = .next t ∧
      t.responses = s.responses ++ (r :: rs ++ [r])

/-- Rule R83: a QUERY that answers 0 is definitive, no INSERT with its operands has run; one that answers 1 is not, since SETs
alone can make any QUERY answer 1. -/
def Obligations.ZeroIsDefinitiveOneIsNot : Prop :=
  (∀ (s : State) (h1 h2 : Word) (cs : List Record), ∃ (t : State) (all : Bool),
    runCommands s (cs ++ [encode (.query h1 h2)]) = .next t ∧ t.responses.getLast? = some ⟨.ok, all, []⟩ ∧
    (all = false → ∀ c ∈ cs, decode c ≠ .ok (.insert h1 h2))) ∧
  ∀ (p : Params) (h1 h2 : Word), ∃ (cs : List Record) (t : State),
    (∀ c ∈ cs, ∃ x : Word, decode c = .ok (.set x)) ∧
    runFromReset p (cs ++ [encode (.query h1 h2)]) = .next t ∧ t.responses.getLast? = some ⟨.ok, true, []⟩

/-! ## The whole machine (00_scope.md, 10_state.md, 20_memory.md, 70_reset_and_hazards.md) -/

/-- Rule R7: a pair (M, K) outside the ranges of rule R5 and rule R6 builds no block, and every pair inside builds its own. -/
def Obligations.OutOfRangeConfigurationBuildsNoBlock : Prop :=
  ∀ m k : Nat,
    ((1 ≤ m ∧ m ≤ 2 ^ 64) ∧ (1 ≤ k ∧ k ≤ 2 ^ 64 - 1) → ∃ p : Params, Params.build? m k = some p ∧ p.m = m ∧ p.k = k) ∧
    (¬ ((1 ≤ m ∧ m ≤ 2 ^ 64) ∧ (1 ≤ k ∧ k ≤ 2 ^ 64 - 1)) → Params.build? m k = none)

/-- Rule R14: no step changes M or K. -/
def Obligations.ConstantsNeverChange : Prop :=
  ∀ s : State, ∃ t : State, step s = .next t ∧ t.params = s.params

/-- Rule R16: between two resets a cell only ever goes from 0 to 1. -/
def Obligations.CellsOnlyRise : Prop :=
  (∀ (i : Instr) (s : State), ∃ t : State, exec i s = .next t ∧ ∀ a : Nat, s.bits.read a = true → t.bits.read a = true) ∧
  ∀ s : State, (∀ rest : List HostAction, s.pending ≠ .reset :: rest) →
    ∃ t : State, step s = .next t ∧ ∀ a : Nat, s.bits.read a = true → t.bits.read a = true

/-- Rule R17: only SET and INSERT write cells, a command that ends in an error writes none, and only TEST and QUERY read them:
what the other commands answer does not depend on the cells. -/
def Obligations.WhoReadsAndWritesTheCells : Prop :=
  (∀ (i : Instr) (s : State), ∃ (t : State) (r : Response), exec i s = .next t ∧ t.responses = s.responses ++ [r] ∧
    (t.bits ≠ s.bits → (∃ x : Word, i = .set x) ∨ ∃ h1 h2 : Word, i = .insert h1 h2) ∧
    (r.status ≠ .ok → t.bits = s.bits)) ∧
  (∀ (s : State) (c : Record) (rest : List HostAction) (e : DecodeError), s.pending = .command c :: rest →
    decode c = .error e → ∃ t : State, step s = .next t ∧ t.bits = s.bits) ∧
  ∀ (i : Instr) (s : State) (other : Memory),
    (∃ x : Word, i = .set x) ∨ (∃ h1 h2 : Word, i = .derive h1 h2) ∨ (∃ h1 h2 : Word, i = .insert h1 h2) →
    ∃ t u : State, exec i s = .next t ∧ exec i { s with bits := other } = .next u ∧ t.responses = u.responses

/-- The frame of every command (rules R14, R15, R17, R68, R75): the constants, what the host has presented and the earlier
responses stay, exactly one response is added, and every cell outside those the command stores to reads as before. The stored
cells are given by the expressions the meanings use. -/
def Obligations.CommandFrame : Prop :=
  ∀ (i : Instr) (s : State), ∃ (t : State) (r : Response), exec i s = .next t ∧
    t.params = s.params ∧ t.pending = s.pending ∧ t.responses = s.responses ++ [r] ∧
    (∀ x : Word, i = .set x → ∀ a : Nat,
      ¬ (inRange s.params (directIndex x) = true ∧ a = directIndex x) → t.bits.read a = s.bits.read a) ∧
    (∀ h1 h2 : Word, i = .insert h1 h2 → ∀ a : Nat, a ∉ derivedIndices s.params h1 h2 → t.bits.read a = s.bits.read a) ∧
    (∀ a : Nat, (∀ x : Word, i ≠ .set x) → (∀ h1 h2 : Word, i ≠ .insert h1 h2) → t.bits.read a = s.bits.read a)

/-- Rule R81: QUERY, DERIVE and TEST never change `bits`, whatever they answer. -/
def Obligations.ReadersNeverWrite : Prop :=
  ∀ (s : State) (h1 h2 x : Word),
    (∃ t : State, exec (.query h1 h2) s = .next t ∧ t.bits = s.bits) ∧
    (∃ t : State, exec (.derive h1 h2) s = .next t ∧ t.bits = s.bits) ∧
    (∃ t : State, exec (.test x) s = .next t ∧ t.bits = s.bits)

/-- Rules R24, R104: reset leaves every cell 0, M and K as they were and gets no response; after it every TEST in range and
every QUERY answers 0. That it gets no response is rule R103. That the responses given back and
what the host has presented after it are kept is the model's form (log entry 7). -/
def Obligations.ResetClearsEveryCell : Prop :=
  ∀ (s : State) (rest : List HostAction), s.pending = .reset :: rest →
    ∃ t : State, step s = .next t ∧ t.params = s.params ∧ t.pending = rest ∧ t.responses = s.responses ∧
      (∀ a : Nat, t.bits.read a = false) ∧
      (∀ x : Word, x.toNat < t.params.m →
        exec (.test x) t = .next { t with responses := t.responses ++ [⟨.ok, false, []⟩] }) ∧
      ∀ h1 h2 : Word, exec (.query h1 h2) t = .next { t with responses := t.responses ++ [⟨.ok, false, []⟩] }

/-- The invariant of the bit array (rules R15, R27), kept by every step from every state that has it: the list is in canonical
form and every cell of it is below M. -/
def Obligations.EveryStepKeepsTheArray : Prop :=
  ∀ s t : State, s.Inv → step s = .next t → t.Inv

/-- The invariant holds right after reset, on every block. The block of State.reset, whose M and K are the model's choice (log
entry 3), is one of them. -/
def Obligations.ResetHasTheArray : Prop :=
  (∀ p : Params, (State.resetWith p).Inv) ∧ State.reset.Inv

/-- Rules R47, R49: every step keeps the shape of the responses: an error carries `result` 0 and no beat, a family has K beats
or none, and each beat's index is its g mod M. -/
def Obligations.EveryStepKeepsResponsesShaped : Prop :=
  ∀ s t : State, (∀ r ∈ s.responses, r.WellShaped s.params) → step s = .next t → ∀ r ∈ t.responses, r.WellShaped t.params

/-- When a presented record decodes, the step takes it and is exec of the command at the state without it (rules R9, R33);
the record of a command, presented next through withFetchWord, runs exactly that command. -/
def Obligations.StepRunsTheDecodedCommand : Prop :=
  (∀ (s : State) (c : Record) (rest : List HostAction) (i : Instr), s.pending = .command c :: rest → decode c = .ok i →
    step s = exec i { s with pending := rest }) ∧
  ∀ (s : State) (i : Instr), step (s.withFetchWord 136 (encode i).toNat) = exec i s

/-- With nothing presented the block waits (rule R106). That waiting is a step that changes nothing is the model's choice (log
entry 4). -/
def Obligations.IdleBlockWaits : Prop :=
  ∀ s : State, s.pending = [] → step s = .next s

/-- No step of any state faults or is refused: the spec has no stop (rule R90; 93_implementation_defined.md, nothing is
stuck). -/
def Obligations.EveryStepAnswers : Prop :=
  ∀ s : State, ∃ t : State, step s = .next t

/-- Rule R97: the same record on the same cells, M and K gives the same response and leaves the same cells, whatever was
answered before and whatever the host presents after it. -/
def Obligations.StepDependsOnRecordAndCellsOnly : Prop :=
  ∀ (s q : State) (c : Record) (rest rest' : List HostAction), s.params = q.params → s.bits = q.bits →
    s.pending = .command c :: rest → q.pending = .command c :: rest' →
    ∃ (t u : State) (r : Response), step s = .next t ∧ step q = .next u ∧ t.bits = u.bits ∧
      t.responses = s.responses ++ [r] ∧ u.responses = q.responses ++ [r]

/-- Rule R33: commands take effect one at a time in the order presented. A list of commands gets one response each, in order,
and one more command at its end is answered from the state those before it have left. -/
def Obligations.CommandsTakeEffectInOrder : Prop :=
  ∀ (s : State) (cs : List Record) (c : Record), ∃ (t u : State) (rs : List Response) (r : Response),
    runCommands s cs = .next t ∧ t.responses = s.responses ++ rs ∧ rs.length = cs.length ∧ t.pending = [] ∧
    runCommands s (cs ++ [c]) = .next u ∧ step { t with pending := [.command c] } = .next u ∧
    u.responses = s.responses ++ rs ++ [r]

/-- Rule R30: reads and writes are idempotent, so repeating any command changes nothing beyond what its first execution
changed. -/
def Obligations.RepeatingACommandChangesNothing : Prop :=
  ∀ (s : State) (c : Record), ∃ t u : State,
    runCommands s [c] = .next t ∧ runCommands s [c, c] = .next u ∧ u.bits = t.bits ∧ u.params = t.params

/-- The final cells of a run (rules R24, R68, R75, R83, R116): after a reset and any list of records, a cell is 1 exactly when
some record of the list is a SET of it, in range, or an INSERT one of whose K derived indices it is. -/
def Obligations.CellsAfterARun : Prop :=
  ∀ (p : Params) (cs : List Record), ∃ (rs : List Response) (bits : Memory), runOutcome p cs = some (rs, bits) ∧
    rs.length = cs.length ∧
    ∀ a : Nat, bits.read a = true ↔ ∃ c ∈ cs,
      (∃ x : Word, decode c = .ok (.set x) ∧ x.toNat = a ∧ a < p.m) ∨
      ∃ (h1 h2 : Word) (i : Nat), decode c = .ok (.insert h1 h2) ∧ 1 ≤ i ∧ i ≤ p.k ∧
        a = (h1.toNat + i * h2.toNat) % 2 ^ 64 % p.m

/-! ## The response layout (30_encoding.md section 4a) -/

/-- Rule R87: the status codes, and that no other code exists. -/
def Obligations.StatusCodes : Prop :=
  Status.ok.code = 0x00 ∧ Status.indexOutOfRange.code = 0x01 ∧ Status.illegalCommand.code = 0x02 ∧
  ∀ st : Status, st.code.toNat < 3

/-- Rule R48: where the header and the beats carry `status`, `result`, g and the index, one beat of 128 bits for each beat of
the family in its order, K of them for DERIVE and none for the other commands. -/
def Obligations.ResponseLayout : Prop :=
  (∀ r : Response, r.layout.1.extractLsb' 8 8 = r.status.code ∧ r.layout.1.extractLsb' 1 7 = 0 ∧
    r.layout.1.getLsbD 0 = r.result ∧ r.layout.2.length = r.family.length ∧
    ∀ (i : Nat) (b : Beat), r.family[i]? = some b → ∃ w : BitVec 128, r.layout.2[i]? = some w ∧
      w.extractLsb' 64 64 = b.g ∧ w.extractLsb' 0 64 = b.index) ∧
  ∀ (i : Instr) (s : State), ∃ (t : State) (r : Response), exec i s = .next t ∧ t.responses = s.responses ++ [r] ∧
    ((∃ h1 h2 : Word, i = .derive h1 h2) → r.layout.2.length = s.params.k) ∧
    ((∀ h1 h2 : Word, i ≠ .derive h1 h2) → r.layout.2 = [])
end

