-- ==== Sys2Proof/Laws/Decode.lean ====
section
/-! SUPPORT. The fields of a record, and what the decoder answers in terms of them. -/

namespace Sys2Proof

/-- As a number, a record is op·2^128 + x·2^64 + y (rule R39). -/
theorem toNat_recordOf (op : BitVec 8) (x y : Word) :
    (recordOf op x y).toNat = op.toNat * 2 ^ 128 + x.toNat * 2 ^ 64 + y.toNat := by
  have ho := op.isLt; have hx := x.isLt; have hy := y.isLt
  have h1 : (op.setWidth 136 <<< 128).toNat = op.toNat <<< 128 := by
    rw [BitVec.toNat_shiftLeft, BitVec.toNat_setWidth, Nat.mod_eq_of_lt (by omega), Nat.mod_eq_of_lt (by omega)]
  have h2 : (x.setWidth 136 <<< 64).toNat = x.toNat <<< 64 := by
    rw [BitVec.toNat_shiftLeft, BitVec.toNat_setWidth, Nat.mod_eq_of_lt (by omega), Nat.mod_eq_of_lt (by omega)]
  have h3 : (y.setWidth 136).toNat = y.toNat := by rw [BitVec.toNat_setWidth, Nat.mod_eq_of_lt (by omega)]
  rw [recordOf, BitVec.toNat_or, BitVec.toNat_or, h1, h2, h3, Nat.or_assoc, ← Nat.shiftLeft_add_eq_or_of_lt hy x.toNat,
    ← Nat.shiftLeft_add_eq_or_of_lt (i := 128) (by rw [Nat.shiftLeft_eq]; omega) op.toNat, Nat.shiftLeft_eq,
    Nat.shiftLeft_eq]
  omega

theorem toNat_opField (c : Record) : (opField c).toNat = c.toNat / 2 ^ 128 := by
  have := c.isLt
  rw [opField, BitVec.extractLsb'_toNat, Nat.shiftRight_eq_div_pow]; omega

theorem toNat_xField (c : Record) : (xField c).toNat = c.toNat / 2 ^ 64 % 2 ^ 64 := by
  rw [xField, BitVec.extractLsb'_toNat, Nat.shiftRight_eq_div_pow]

theorem toNat_yField (c : Record) : (yField c).toNat = c.toNat % 2 ^ 64 := by
  rw [yField, BitVec.extractLsb'_toNat, Nat.shiftRight_eq_div_pow]; simp

theorem opField_recordOf (op : BitVec 8) (x y : Word) : opField (recordOf op x y) = op := by
  apply BitVec.eq_of_toNat_eq
  have := x.isLt; have := y.isLt
  rw [toNat_opField, toNat_recordOf]; omega

theorem xField_recordOf (op : BitVec 8) (x y : Word) : xField (recordOf op x y) = x := by
  apply BitVec.eq_of_toNat_eq
  have := x.isLt; have := y.isLt
  rw [toNat_xField, toNat_recordOf]; omega

theorem yField_recordOf (op : BitVec 8) (x y : Word) : yField (recordOf op x y) = y := by
  apply BitVec.eq_of_toNat_eq
  have := y.isLt
  rw [toNat_yField, toNat_recordOf]; omega

/-- A record is its three fields: no bit of it lies outside them. -/
theorem recordOf_fields (c : Record) : recordOf (opField c) (xField c) (yField c) = c := by
  apply BitVec.eq_of_toNat_eq
  rw [toNat_recordOf, toNat_opField, toNat_xField, toNat_yField]; omega

theorem testBit_record (c : Record) {i : Nat} (h : 136 ≤ i) : c.toNat.testBit i = false :=
  Nat.testBit_lt_two_pow (Nat.lt_of_lt_of_le c.isLt (Nat.pow_le_pow_right (by decide) h))

/-- The mask of format H keeps `op` (rule R44). -/
theorem and_hash_mask (c : Record) :
    c &&& 0xFF00000000000000000000000000000000#136 = recordOf (opField c) 0 0 := by
  apply BitVec.eq_of_toNat_eq
  rw [toNat_recordOf, toNat_opField, BitVec.toNat_and]
  have hm : (0xFF00000000000000000000000000000000#136).toNat = (2 ^ 8 - 1) <<< 128 := by decide
  have hr : c.toNat / 2 ^ 128 * 2 ^ 128 + (0 : Word).toNat * 2 ^ 64 + (0 : Word).toNat = (c.toNat >>> 128) <<< 128 := by
    rw [Nat.shiftLeft_eq, Nat.shiftRight_eq_div_pow]; simp
  rw [hm, hr]
  apply Nat.eq_of_testBit_eq
  intro i
  simp only [Nat.testBit_and, Nat.testBit_shiftLeft, Nat.testBit_shiftRight, Nat.testBit_two_pow_sub_one]
  by_cases h : 128 ≤ i
  · by_cases h' : 136 ≤ i
    · simp [h, testBit_record c h']
    · have : i - 128 < 8 := by omega
      simp [h, this]
  · simp [h]

/-- The mask of format I keeps `op` and `y` (rule R44). -/
theorem and_index_mask (c : Record) :
    c &&& 0xFF0000000000000000FFFFFFFFFFFFFFFF#136 = recordOf (opField c) 0 (yField c) := by
  apply BitVec.eq_of_toNat_eq
  rw [toNat_recordOf, toNat_opField, toNat_yField, BitVec.toNat_and]
  have hm : (0xFF0000000000000000FFFFFFFFFFFFFFFF#136).toNat = (2 ^ 8 - 1) <<< 128 ||| (2 ^ 64 - 1) := by decide
  have hr : c.toNat / 2 ^ 128 * 2 ^ 128 + (0 : Word).toNat * 2 ^ 64 + c.toNat % 2 ^ 64 =
      (c.toNat >>> 128) <<< 128 ||| (c.toNat % 2 ^ 64) := by
    rw [← Nat.shiftLeft_add_eq_or_of_lt (b := c.toNat % 2 ^ 64) (i := 128) (by omega), Nat.shiftLeft_eq,
      Nat.shiftRight_eq_div_pow]
    simp
  rw [hm, hr]
  apply Nat.eq_of_testBit_eq
  intro i
  simp only [Nat.testBit_and, Nat.testBit_or, Nat.testBit_shiftLeft, Nat.testBit_shiftRight,
    Nat.testBit_two_pow_sub_one, Nat.testBit_mod_two_pow]
  by_cases h : 128 ≤ i
  · by_cases h' : 136 ≤ i
    · simp [h, testBit_record c h']
    · have : i - 128 < 8 := by omega
      simp [h, this]
  · by_cases h' : i < 64 <;> simp [h, h']

/-- When a record selects a row of format H. -/
theorem selects_hash (name : String) (op : BitVec 8) (c : Record) :
    OpRow.selects ⟨name, recordOf op 0 0, 0xFF00000000000000000000000000000000#136⟩ c = true ↔ opField c = op := by
  rw [OpRow.selects, beq_iff_eq, and_hash_mask]
  exact ⟨fun h => by simpa [opField_recordOf] using congrArg opField h, fun h => by rw [h]⟩

/-- When a record selects a row of format I. -/
theorem selects_index (name : String) (op : BitVec 8) (c : Record) :
    OpRow.selects ⟨name, recordOf op 0 0, 0xFF0000000000000000FFFFFFFFFFFFFFFF#136⟩ c = true ↔
      opField c = op ∧ yField c = 0 := by
  rw [OpRow.selects, beq_iff_eq, and_index_mask]
  exact ⟨fun h => ⟨by simpa [opField_recordOf] using congrArg opField h, by simpa [yField_recordOf] using congrArg yField h⟩,
    fun ⟨h, h'⟩ => by rw [h, h']⟩

/-- The patterns of rule R44's rows are the records with operands 0. -/
theorem opRows_eq : opRows =
    [ ⟨"SET", recordOf 0x01 0 0, 0xFF0000000000000000FFFFFFFFFFFFFFFF#136⟩,
      ⟨"TEST", recordOf 0x02 0 0, 0xFF0000000000000000FFFFFFFFFFFFFFFF#136⟩,
      ⟨"DERIVE", recordOf 0x03 0 0, 0xFF00000000000000000000000000000000#136⟩,
      ⟨"INSERT", recordOf 0x04 0 0, 0xFF00000000000000000000000000000000#136⟩,
      ⟨"QUERY", recordOf 0x05 0 0, 0xFF00000000000000000000000000000000#136⟩ ] := rfl

/-- Which records are legal, by their fields. -/
theorem legalRecord_iff (c : Record) : legalRecord c = true ↔
    (opField c = 0x01 ∧ yField c = 0) ∨ (opField c = 0x02 ∧ yField c = 0) ∨
      opField c = 0x03 ∨ opField c = 0x04 ∨ opField c = 0x05 := by
  simp only [legalRecord, opRows_eq, List.any_cons, List.any_nil, Bool.or_eq_true, selects_hash, selects_index,
    Bool.false_eq_true, or_false]

end Sys2Proof
end

