-- ==== Sys2Proof/Laws/Memory.lean ====
section
/-! SUPPORT. The bit array's read and write laws, and that every operation keeps the canonical form. -/

namespace Sys2Proof.Machine

theorem read_eq_true (mem : Memory) (a : Nat) : mem.read a = true ↔ a ∈ mem := by
  simp [Memory.read, Memory.unlisted]

theorem read_nil (a : Nat) : Memory.read [] a = false := rfl

theorem mem_list (mem : Memory) (i a : Nat) : a ∈ mem.list i ↔ a = i ∨ a ∈ mem := by
  induction mem with
  | nil => simp [Memory.list]
  | cons b rest ih =>
    unfold Memory.list
    split
    · simp
    · split
      · next h => subst h; simp
      · simp [ih]; tauto

theorem mem_unlist (mem : Memory) (i a : Nat) : a ∈ mem.unlist i ↔ a ∈ mem ∧ a ≠ i := by
  simp [Memory.unlist]

/-- Read after write: the written cell holds the value, every other cell what it held (rule R15). -/
theorem read_write (mem : Memory) (i a : Nat) (v : Bool) :
    (mem.write i v).read a = if a = i then v else mem.read a := by
  rw [Bool.eq_iff_iff, read_eq_true]
  cases v
  · by_cases h : a = i <;> simp [Memory.write, Memory.unlisted, mem_unlist, h, read_eq_true]
  · by_cases h : a = i <;> simp [Memory.write, Memory.unlisted, mem_list, h, read_eq_true]

theorem wf_iff_pairwise (mem : Memory) : mem.wf = true ↔ mem.Pairwise (· < ·) := by
  induction mem with
  | nil => simp [Memory.wf]
  | cons a rest ih =>
    cases rest with
    | nil => simp [Memory.wf]
    | cons b rest =>
      simp only [Memory.wf, Bool.and_eq_true, decide_eq_true_eq, ih, List.pairwise_cons, List.mem_cons]
      constructor
      · rintro ⟨hab, hb, hr⟩
        exact ⟨by rintro c (rfl | hc); exacts [hab, hab.trans (hb c hc)], hb, hr⟩
      · rintro ⟨ha, hb, hr⟩
        exact ⟨ha b (.inl rfl), hb, hr⟩

theorem wf_list {mem : Memory} (h : mem.wf = true) (i : Nat) : (mem.list i).wf = true := by
  rw [wf_iff_pairwise] at h ⊢
  induction mem with
  | nil => simp [Memory.list]
  | cons a rest ih =>
    obtain ⟨ha, hr⟩ := List.pairwise_cons.1 h
    unfold Memory.list
    split
    · next hi =>
      refine List.pairwise_cons.2 ⟨fun b hb => ?_, h⟩
      rcases List.mem_cons.1 hb with rfl | hb
      exacts [hi, hi.trans (ha b hb)]
    · split
      · exact h
      · refine List.pairwise_cons.2 ⟨fun b hb => ?_, ih hr⟩
        rcases (mem_list rest i b).1 hb with rfl | hb
        exacts [by omega, ha b hb]

theorem wf_unlist {mem : Memory} (h : mem.wf = true) (i : Nat) : (mem.unlist i).wf = true := by
  rw [wf_iff_pairwise] at h ⊢
  exact h.filter _

/-- A write keeps the canonical form. -/
theorem wf_write {mem : Memory} (h : mem.wf = true) (i : Nat) (v : Bool) : (mem.write i v).wf = true := by
  unfold Memory.write
  split
  exacts [wf_unlist h i, wf_list h i]

theorem within_iff (mem : Memory) (size : Nat) : mem.within size = true ↔ ∀ a ∈ mem, a < size := by
  simp [Memory.within]

/-- A write below the size keeps every listed index below it. -/
theorem within_write {mem : Memory} {size i : Nat} (h : mem.within size = true) (hi : i < size) (v : Bool) :
    (mem.write i v).within size = true := by
  rw [within_iff] at h ⊢
  intro a ha
  unfold Memory.write at ha
  split at ha
  · exact h a ((mem_unlist mem i a).1 ha).1
  · rcases (mem_list mem i a).1 ha with rfl | ha
    exacts [hi, h a ha]

/-- Two arrays in canonical form whose cells all agree are the same list. -/
theorem eq_of_read_eq {m n : Memory} (hm : m.wf = true) (hn : n.wf = true) (h : ∀ a, m.read a = n.read a) : m = n := by
  rw [wf_iff_pairwise] at hm hn
  have hp : m.Perm n := (List.perm_ext_iff_of_nodup (hm.imp Nat.ne_of_lt) (hn.imp Nat.ne_of_lt)).2
    fun a => by rw [← read_eq_true, ← read_eq_true, h]
  exact hp.eq_of_pairwise (fun a b _ _ hab hba => absurd hab (Nat.lt_asymm hba)) hm hn

end Sys2Proof.Machine
end

