-- ==== Sys2Proof/Laws/Operands.lean ====
section
/-! SUPPORT. What the operand forms give: lengths, entries, and that every derived index is a cell of the array. -/

namespace Sys2Proof.Machine

@[simp] theorem length_derive (h1 h2 : Word) (k : Nat) : (derive h1 h2 k).length = k := by simp [derive]

theorem mem_derive (h1 h2 g : Word) (k : Nat) :
    g ∈ derive h1 h2 k ↔ ∃ i, 1 ≤ i ∧ i ≤ k ∧ g = derivedValue h1 h2 i := by
  simp only [derive, List.mem_map, List.mem_range]
  constructor
  · rintro ⟨j, hj, rfl⟩; exact ⟨j + 1, by omega, by omega, rfl⟩
  · rintro ⟨i, h1, hk, rfl⟩; exact ⟨i - 1, by omega, by rw [Nat.sub_add_cancel h1]⟩

theorem toNat_derivedValue (h1 h2 : Word) (i : Nat) :
    (derivedValue h1 h2 i).toNat = (h1.toNat + i * h2.toNat) % 2 ^ 64 := by
  simp [derivedValue, BitVec.toNat_ofNat]

theorem indexOf_lt (p : Params) (g : Word) : indexOf p g < p.m := Nat.mod_lt _ p.m_range.1

theorem mem_derivedIndices (p : Params) (h1 h2 : Word) (a : Nat) :
    a ∈ derivedIndices p h1 h2 ↔
      ∃ i, 1 ≤ i ∧ i ≤ p.k ∧ a = (h1.toNat + i * h2.toNat) % 2 ^ 64 % p.m := by
  simp only [derivedIndices, hashFamily, List.mem_map, mem_derive]
  constructor
  · rintro ⟨g, ⟨i, hi, hk, rfl⟩, rfl⟩; exact ⟨i, hi, hk, by rw [indexOf, toNat_derivedValue]⟩
  · rintro ⟨i, hi, hk, rfl⟩; exact ⟨_, ⟨i, hi, hk, rfl⟩, by rw [indexOf, toNat_derivedValue]⟩

/-- Every derived index is below M. -/
theorem derivedIndices_lt {p : Params} {h1 h2 : Word} {a : Nat} (h : a ∈ derivedIndices p h1 h2) : a < p.m := by
  obtain ⟨g, -, rfl⟩ := List.mem_map.1 h
  exact indexOf_lt p g

theorem toNat_beatOf_index (p : Params) (g : Word) : (beatOf p g).index.toNat = g.toNat % p.m := by
  rw [beatOf, BitVec.toNat_ofNat, indexOf]
  exact Nat.mod_eq_of_lt (Nat.lt_of_lt_of_le (Nat.mod_lt _ p.m_range.1) p.m_range.2)

@[simp] theorem length_derivedBeats (p : Params) (h1 h2 : Word) : (derivedBeats p h1 h2).length = p.k := by
  simp [derivedBeats, hashFamily]

end Sys2Proof.Machine
end

