-- ==== Sys2Proof/Laws/Ops.lean ====
section
/-! SUPPORT. One lemma per shared operation: everything it can answer. -/

namespace Sys2Proof.Machine

/-- Write 1 at each index of a list. -/
def Memory.setAll (mem : Memory) (indices : List Nat) : Memory := indices.foldl (fun m i => m.write i true) mem

theorem read_setAll (indices : List Nat) (mem : Memory) (a : Nat) :
    (mem.setAll indices).read a = (decide (a ∈ indices) || mem.read a) := by
  induction indices generalizing mem with
  | nil => simp [Memory.setAll]
  | cons i rest ih =>
    have := ih (mem.write i true)
    simp only [Memory.setAll, List.foldl_cons] at this ⊢
    rw [this, read_write]
    by_cases h : a = i <;> simp [h]

theorem wf_setAll (indices : List Nat) {mem : Memory} (h : mem.wf = true) : (mem.setAll indices).wf = true := by
  induction indices generalizing mem with
  | nil => exact h
  | cons i rest ih => exact ih (wf_write h i true)

theorem within_setAll (indices : List Nat) {mem : Memory} {size : Nat} (h : mem.within size = true)
    (hi : ∀ a ∈ indices, a < size) : (mem.setAll indices).within size = true := by
  induction indices generalizing mem with
  | nil => exact h
  | cons i rest ih =>
    exact ih (within_write h (hi i (by simp)) true) fun a ha => hi a (by simp [ha])

theorem memRead_eq {s : State} {i : Nat} (h : i < s.params.m) : memRead s i = .ok (s.bits.read i) := if_pos h

theorem memWrite_eq {s : State} {i : Nat} (h : i < s.params.m) (v : Bool) :
    memWrite s i v = .ok { s with bits := s.bits.write i v } := if_pos h

/-- An access outside the array is not defined. -/
theorem memRead_fault {s : State} {i : Nat} (h : s.params.m ≤ i) : memRead s i = .error (.noSuchCell i) :=
  if_neg (Nat.not_lt.2 h)

theorem memWrite_fault {s : State} {i : Nat} (h : s.params.m ≤ i) (v : Bool) :
    memWrite s i v = .error (.noSuchCell i) := if_neg (Nat.not_lt.2 h)

/-- In range, setting each index of a list succeeds and writes 1 at exactly those cells. -/
theorem setEach_eq (indices : List Nat) {s : State} (h : ∀ a ∈ indices, a < s.params.m) :
    setEach s indices = .ok { s with bits := s.bits.setAll indices } := by
  induction indices generalizing s with
  | nil => rfl
  | cons i rest ih =>
    rw [setEach, memWrite_eq (h i (by simp))]
    exact ih fun a ha => h a (by simp [ha])

/-- In range, the loop of QUERY succeeds and gives the AND of the cells. -/
theorem allSet_eq (indices : List Nat) {s : State} (h : ∀ a ∈ indices, a < s.params.m) (all : Bool) :
    allSet s all indices = .ok (all && indices.all fun a => s.bits.read a) := by
  induction indices generalizing all with
  | nil => simp [allSet]
  | cons i rest ih =>
    rw [allSet, memRead_eq (h i (by simp))]
    simp only [ih fun a ha => h a (by simp [ha]), List.all_cons]
    cases hb : s.bits.read i <;> cases all <;> simp

@[simp] theorem andThen_ok {α : Type} (a : α) (go : α → Host.Outcome State Fault Refusal) :
    andThen (.ok a) go = go a := rfl

@[simp] theorem andThen_error {α : Type} (f : Fault) (go : α → Host.Outcome State Fault Refusal) :
    andThen (.error f) go = .fault f := rfl

theorem takeAction_nil {s : State} (h : s.pending = []) : takeAction s = none := by simp [takeAction, h]

theorem takeAction_cons {s : State} {a : HostAction} {rest : List HostAction} (h : s.pending = a :: rest) :
    takeAction s = some (a, { s with pending := rest }) := by simp [takeAction, h]

end Sys2Proof.Machine
end

