-- ==== Sys2Proof/Laws/State.lean ====
section
/-! SUPPORT. One lemma per field for each named update of State. -/

namespace Sys2Proof.Machine

@[simp] theorem resetWith_params (p : Params) : (State.resetWith p).params = p := rfl
@[simp] theorem resetWith_bits (p : Params) : (State.resetWith p).bits = [] := rfl
@[simp] theorem resetWith_pending (p : Params) : (State.resetWith p).pending = [] := rfl
@[simp] theorem resetWith_responses (p : Params) : (State.resetWith p).responses = [] := rfl

variable (s : State)

@[simp] theorem answer_params (r : Response) : (s.answer r).params = s.params := rfl
@[simp] theorem answer_bits (r : Response) : (s.answer r).bits = s.bits := rfl
@[simp] theorem answer_pending (r : Response) : (s.answer r).pending = s.pending := rfl
@[simp] theorem answer_responses (r : Response) : (s.answer r).responses = s.responses ++ [r] := rfl

@[simp] theorem applyReset_params : (applyReset s).params = s.params := rfl
@[simp] theorem applyReset_bits : (applyReset s).bits = [] := rfl
@[simp] theorem applyReset_pending : (applyReset s).pending = s.pending := rfl
@[simp] theorem applyReset_responses : (applyReset s).responses = s.responses := rfl

@[simp] theorem present_params (a : HostAction) : (s.present a).params = s.params := rfl
@[simp] theorem present_bits (a : HostAction) : (s.present a).bits = s.bits := rfl
@[simp] theorem present_pending (a : HostAction) : (s.present a).pending = s.pending ++ [a] := rfl
@[simp] theorem present_responses (a : HostAction) : (s.present a).responses = s.responses := rfl

@[simp] theorem presentNext_params (a : HostAction) : (s.presentNext a).params = s.params := rfl
@[simp] theorem presentNext_bits (a : HostAction) : (s.presentNext a).bits = s.bits := rfl
@[simp] theorem presentNext_pending (a : HostAction) : (s.presentNext a).pending = a :: s.pending := rfl
@[simp] theorem presentNext_responses (a : HostAction) : (s.presentNext a).responses = s.responses := rfl

@[simp] theorem withFetchWord_pending (nbits w : Nat) :
    (s.withFetchWord nbits w).pending = .command (tableRecord nbits w) :: s.pending := rfl

end Sys2Proof.Machine
end

