-- ==== Sys2Proof/Laws/Exec.lean ====
section
/-! SUPPORT. What each meaning answers, said once; later proofs cite these and unfold no meaning. -/

namespace Sys2Proof.Machine

theorem execSet_below {s : State} {x : Word} (h : x.toNat < s.params.m) :
    execSet x s = .next (State.answer { s with bits := s.bits.write x.toNat true } (.success false [])) := by
  simp [execSet, inRange, directIndex, h, memWrite_eq h, respond]

theorem execSet_above {s : State} {x : Word} (h : s.params.m ≤ x.toNat) :
    execSet x s = .next (s.answer (.failure .indexOutOfRange)) := by
  simp [execSet, inRange, directIndex, Nat.not_lt.2 h, raise]

theorem execTest_below {s : State} {x : Word} (h : x.toNat < s.params.m) :
    execTest x s = .next (s.answer (.success (s.bits.read x.toNat) [])) := by
  simp [execTest, inRange, directIndex, h, memRead_eq h, respond]

theorem execTest_above {s : State} {x : Word} (h : s.params.m ≤ x.toNat) :
    execTest x s = .next (s.answer (.failure .indexOutOfRange)) := by
  simp [execTest, inRange, directIndex, Nat.not_lt.2 h, raise]

theorem execDerive_eq (s : State) (h1 h2 : Word) :
    execDerive h1 h2 s = .next (s.answer (.success false (derivedBeats s.params h1 h2))) := rfl

theorem execInsert_eq (s : State) (h1 h2 : Word) :
    execInsert h1 h2 s =
      .next (State.answer { s with bits := s.bits.setAll (derivedIndices s.params h1 h2) } (.success false [])) := by
  rw [execInsert, setEach_eq _ fun _ => derivedIndices_lt]; rfl

theorem execQuery_eq (s : State) (h1 h2 : Word) :
    execQuery h1 h2 s =
      .next (s.answer (.success ((derivedIndices s.params h1 h2).all fun a => s.bits.read a) [])) := by
  rw [execQuery, allSet_eq _ fun _ => derivedIndices_lt]; simp [respond]

/-- The response a command gets. -/
def responseOf (p : Params) (mem : Memory) : Instr → Response
  | .set x => if x.toNat < p.m then .success false [] else .failure .indexOutOfRange
  | .test x => if x.toNat < p.m then .success (mem.read x.toNat) [] else .failure .indexOutOfRange
  | .derive h1 h2 => .success false (derivedBeats p h1 h2)
  | .insert _ _ => .success false []
  | .query h1 h2 => .success ((derivedIndices p h1 h2).all fun a => mem.read a) []

/-- The cells a command leaves. -/
def bitsAfter (p : Params) (mem : Memory) : Instr → Memory
  | .set x => if x.toNat < p.m then mem.write x.toNat true else mem
  | .test _ => mem
  | .derive _ _ => mem
  | .insert h1 h2 => mem.setAll (derivedIndices p h1 h2)
  | .query _ _ => mem

/-- Every command answers a next state, and this is all it does. -/
theorem exec_eq (i : Instr) (s : State) :
    exec i s = .next (State.answer { s with bits := bitsAfter s.params s.bits i } (responseOf s.params s.bits i)) := by
  cases i with
  | set x =>
    by_cases h : x.toNat < s.params.m
    · simpa [exec, bitsAfter, responseOf, h] using execSet_below h
    · simpa [exec, bitsAfter, responseOf, h] using execSet_above (Nat.not_lt.1 h)
  | test x =>
    by_cases h : x.toNat < s.params.m
    · simpa [exec, bitsAfter, responseOf, h] using execTest_below h
    · simpa [exec, bitsAfter, responseOf, h] using execTest_above (Nat.not_lt.1 h)
  | derive h1 h2 => exact execDerive_eq s h1 h2
  | insert h1 h2 => exact execInsert_eq s h1 h2
  | query h1 h2 => exact execQuery_eq s h1 h2

end Sys2Proof.Machine
end

