-- ==== Sys2Proof/Laws/PerInstr.lean ====
section
/-! SUPPORT. The per-command family LegalEncoding: the record of a command selects a row of rule R44's table. -/

namespace Sys2Proof.Laws.LegalEncoding

/-- The record of a well-formed command is legal. -/
def Statement (i : Instr) : Prop := i.wellFormed = true → legalRecord (encode i) = true

theorem set (index : Word) : Statement (.set index) := fun _ =>
  (legalRecord_iff _).2 (.inl ⟨opField_recordOf _ _ _, yField_recordOf _ _ _⟩)

theorem test (index : Word) : Statement (.test index) := fun _ =>
  (legalRecord_iff _).2 (.inr (.inl ⟨opField_recordOf _ _ _, yField_recordOf _ _ _⟩))

theorem derive (h1 h2 : Word) : Statement (.derive h1 h2) := fun _ =>
  (legalRecord_iff _).2 (.inr (.inr (.inl (opField_recordOf _ _ _))))

theorem insert (h1 h2 : Word) : Statement (.insert h1 h2) := fun _ =>
  (legalRecord_iff _).2 (.inr (.inr (.inr (.inl (opField_recordOf _ _ _)))))

theorem query (h1 h2 : Word) : Statement (.query h1 h2) := fun _ =>
  (legalRecord_iff _).2 (.inr (.inr (.inr (.inr (opField_recordOf _ _ _)))))

end Sys2Proof.Laws.LegalEncoding
end

