-- ==== Sys2Proof/Laws/Step.lean ====
section
/-! SUPPORT. What the step answers, case by case of what the host has presented. -/

namespace Sys2Proof.Machine

theorem step_waits {s : State} (h : s.pending = []) : step s = .next s := by
  simp [step, takeAction_nil h]

theorem step_reset {s : State} {rest : List HostAction} (h : s.pending = .reset :: rest) :
    step s = .next { s with bits := [], pending := rest } := by
  simp [step, takeAction_cons h, applyReset]

theorem step_legal {s : State} {c : Record} {rest : List HostAction} {i : Instr} (h : s.pending = .command c :: rest)
    (hd : decode c = .ok i) : step s = exec i { s with pending := rest } := by
  simp [step, takeAction_cons h, hd]

theorem step_illegal {s : State} {c : Record} {rest : List HostAction} {e : DecodeError}
    (h : s.pending = .command c :: rest) (hd : decode c = .error e) :
    step s = .next (State.answer { s with pending := rest } (.failure .illegalCommand)) := by
  simp [step, takeAction_cons h, hd, raise]

/-- The cells a record leaves. -/
def recordBits (p : Params) (mem : Memory) (c : Record) : Memory :=
  match decode c with
  | .ok i => bitsAfter p mem i
  | .error _ => mem

/-- The response a record gets. -/
def recordResponse (p : Params) (mem : Memory) (c : Record) : Response :=
  match decode c with
  | .ok i => responseOf p mem i
  | .error _ => .failure .illegalCommand

/-- The step on a command record, legal or not. -/
theorem step_command {s : State} {c : Record} {rest : List HostAction} (h : s.pending = .command c :: rest) :
    step s = .next
      { params := s.params, bits := recordBits s.params s.bits c, pending := rest,
        responses := s.responses ++ [recordResponse s.params s.bits c] } := by
  cases hd : decode c with
  | ok i => rw [step_legal h hd, exec_eq]; simp [State.answer, recordBits, recordResponse, hd]
  | error e => rw [step_illegal h hd]; simp [State.answer, recordBits, recordResponse, hd]

end Sys2Proof.Machine
end

