-- ==== Sys2Proof/Laws/Run.lean ====
section
/-! SUPPORT. A run is a fold of one action's effect: the step said once for both kinds of action, and runs in those terms. -/

namespace Sys2Proof.Machine

/-- What one host action leaves, when the block takes it. -/
def afterAction (s : State) : HostAction → State
  | .reset => { s with bits := [] }
  | .command c =>
    { s with bits := recordBits s.params s.bits c,
             responses := s.responses ++ [recordResponse s.params s.bits c] }

@[simp] theorem afterAction_params (s : State) (a : HostAction) : (afterAction s a).params = s.params := by cases a <;> rfl
@[simp] theorem afterAction_pending (s : State) (a : HostAction) : (afterAction s a).pending = s.pending := by cases a <;> rfl

/-- The step on whatever the host has presented first. -/
theorem step_action {s : State} {a : HostAction} {rest : List HostAction} (h : s.pending = a :: rest) :
    step s = .next (afterAction { s with pending := rest } a) := by
  cases a with
  | reset => exact step_reset h
  | command c => exact step_command h

theorem run_eq_foldl (actions : List HostAction) (s : State) :
    Host.Core.run Sys2Proof.core actions.length { s with pending := actions } =
      .next (actions.foldl afterAction { s with pending := [] }) := by
  induction actions generalizing s with
  | nil => rfl
  | cons a rest ih =>
    have hs : Sys2Proof.core.step { s with pending := a :: rest } =
        .next (afterAction { s with pending := rest } a) :=
      step_action (s := { s with pending := a :: rest }) rfl
    have hb : { afterAction s a with pending := rest } = afterAction { s with pending := rest } a := by cases a <;> rfl
    have he : { afterAction s a with pending := [] } = afterAction { s with pending := [] } a := by cases a <;> rfl
    simp only [List.length_cons, Host.Core.run, hs, ← hb]
    change _ = Host.Outcome.next (rest.foldl afterAction (afterAction { s with pending := [] } a))
    rw [← he]
    exact ih (afterAction s a)

/-- A run of actions takes them all and leaves what they leave one after another. -/
theorem runActions_eq (s : State) (actions : List HostAction) :
    runActions s actions = .next (actions.foldl afterAction { s with pending := [] }) := run_eq_foldl actions s

theorem runCommands_eq (s : State) (cs : List Record) :
    runCommands s cs = .next ((cs.map HostAction.command).foldl afterAction { s with pending := [] }) := runActions_eq s _

end Sys2Proof.Machine
end

