-- ==== Sys2Proof/Tests/Slice0.lean ====
section
/-! SUPPORT. The model's own tests. The expected results are those of 95_test_vectors.md (the vector is named beside each
test), of the rules' own examples, or written out by hand from rule R39. After them, a witness for the hypotheses of each
statement that has some. -/

open Sys2Proof Sys2Proof.Machine

namespace Sys2Proof.Tests

/-- M = 64, K = 4. -/
def p64 : Params := ⟨64, 4, by decide, by decide⟩

/-- M = 1, K = 1: the smallest block. -/
def p1 : Params := ⟨1, 1, by decide, by decide⟩

/-- M = 2^64, K = 2: the largest array. -/
def pMax : Params := ⟨2 ^ 64, 2, by decide, by decide⟩

/-- A block with these cells at 1. -/
def block (p : Params) (bits : Memory) : State := { State.resetWith p with bits := bits }

/-- The same block with these actions presented. -/
def blockWith (p : Params) (bits : Memory) (pending : List HostAction) : State := { block p bits with pending := pending }

/-- The cells and the header and beats of the last response of a next state. -/
def seen : Host.Outcome State Fault Refusal → Option (Memory × Option (BitVec 16 × List (BitVec 128)))
  | .next s => some (s.bits, s.responses.getLast?.map Response.layout)
  | .fault _ => none
  | .refused _ => none

/-! ## Decoding: V-E1 to V-E12 -/

theorem test_decode_set : decode 0x01000000000000000C0000000000000000#136 = .ok (.set 12) := by decide
theorem test_decode_test : decode 0x02000000000000000C0000000000000000#136 = .ok (.test 12) := by decide
theorem test_decode_derive : decode 0x0300000000000000050000000000000007#136 = .ok (.derive 5 7) := by decide
theorem test_decode_insert : decode 0x040123456789ABCDEFFEDCBA9876543210#136 =
    .ok (.insert 0x0123456789ABCDEF 0xFEDCBA9876543210) := by decide
theorem test_decode_query : decode 0x05FFFFFFFFFFFFFFFFFFFFFFFFFFFFFFFF#136 =
    .ok (.query 0xFFFFFFFFFFFFFFFF 0xFFFFFFFFFFFFFFFF) := by decide
theorem test_decode_zero : decode 0#136 = .error (.reservedOp 0) := by decide
theorem test_decode_op_six : decode 0x0600000000000000000000000000000000#136 = .error (.reservedOp 6) := by decide
theorem test_decode_op_last : decode 0xFF00000000000000050000000000000007#136 = .error (.reservedOp 0xFF) := by decide
theorem test_decode_set_y : decode 0x01000000000000002F0000000000000001#136 = .error (.reservedField 1) := by decide
theorem test_decode_test_y : decode 0x0200000000000000008000000000000000#136 =
    .error (.reservedField 0x8000000000000000) := by decide
theorem test_decode_derive_zero : decode 0x0300000000000000000000000000000000#136 = .ok (.derive 0 0) := by decide
theorem test_decode_set_zero : decode 0x0100000000000000000000000000000000#136 = .ok (.set 0) := by decide

/-- V-E4 read backwards. -/
theorem test_encode_insert : encode (.insert 0x0123456789ABCDEF 0xFEDCBA9876543210) =
    0x040123456789ABCDEFFEDCBA9876543210#136 := by decide

theorem test_table_word : decodeTableWord 136 0x0300000000000000050000000000000007 = some (.derive 5 7) := by decide
theorem test_table_word_refused : decodeTableWord 136 0 = none := by decide

/-! ## What is ill formed: a record that selects no row (V-E6 to V-E10), beside the nearest one that does -/

theorem test_illegal_zero : legalRecord 0#136 = false := by decide
theorem test_illegal_op_six : legalRecord 0x0600000000000000000000000000000000#136 = false := by decide
theorem test_legal_op_five : legalRecord 0x0500000000000000000000000000000000#136 = true := by decide
theorem test_illegal_set_y : legalRecord 0x01000000000000002F0000000000000001#136 = false := by decide
theorem test_legal_set : legalRecord 0x01000000000000002F0000000000000000#136 = true := by decide
theorem test_illegal_test_y : legalRecord 0x0200000000000000008000000000000000#136 = false := by decide
theorem test_wellFormed_largest : (Instr.query 0xFFFFFFFFFFFFFFFF 0xFFFFFFFFFFFFFFFF).wellFormed = true := by decide

/-! ## The deriver: V-D4, V-D6, V-D9, V-D10, V-D15 -/

theorem test_derive_wraps : derivedIndices Params.scenario 0xFFFFFFFFFFFFFFFF 0xFFFFFFFFFFFFFFFF = [14, 13, 12] := by decide
theorem test_derive_values : derive 0x0123456789ABCDEF 0xFEDCBA9876543210 3 =
    [0xFFFFFFFFFFFFFFFF, 0xFEDCBA987654320F, 0xFDB97530ECA8641F] := by decide
theorem test_derive_large : derivedIndices ⟨479253, 3, by decide, by decide⟩ 0xDEADBEEFCAFEBABE 0x9E3779B97F4A7C15 =
    [111009, 273438, 121486] := by decide
theorem test_derive_full : derivedIndices pMax 0xDEADBEEFCAFEBABE 0x9E3779B97F4A7C15 =
    [0x7CE538A94A4936D3, 0x1B1CB262C993B2E8] := by decide
theorem test_derive_product_wraps : derivedIndices Params.scenario 1 0x5555555555555556 = [7, 13, 3] := by decide

/-! ## One step -/

/-- V-B4 and V-X1: index = M is out of range and nothing changes. -/
theorem test_set_at_size : seen (step (blockWith Params.scenario [47]
    [.command 0x0100000000000000300000000000000000#136])) = some ([47], some (0x0100, [])) := by decide

/-- V-B11: at M = 2^64 the largest index is a cell. -/
theorem test_set_last_cell : seen (step (blockWith pMax []
    [.command 0x01FFFFFFFFFFFFFFFF0000000000000000#136])) = some ([0xFFFFFFFFFFFFFFFF], some (0x0000, [])) := by decide

/-- V-B6. -/
theorem test_test_reads_one : seen (step (blockWith Params.scenario [47]
    [.command 0x02000000000000002F0000000000000000#136])) = some ([47], some (0x0001, [])) := by decide

/-- V-B14: both faults apply and IllegalCommand wins. -/
theorem test_test_illegal_wins : seen (step (blockWith Params.scenario [47]
    [.command 0x0200000000000000300000000000000001#136])) = some ([47], some (0x0200, [])) := by decide

/-- V-D1 with its response as 95_test_vectors.md section 2.2 writes it. -/
theorem test_derive_response : seen (step (blockWith Params.scenario [4]
    [.command 0x0300000000000000050000000000000007#136])) =
    some ([4], some (0x0000, [0x000000000000000C000000000000000C, 0x00000000000000130000000000000013,
      0x000000000000001A000000000000001A])) := by decide

/-- P5 step 1: i·h2 wraps to 0 for even i. -/
theorem test_derive_repeats : seen (step (blockWith p64 []
    [.command 0x0380000000000000008000000000000000#136])) =
    some ([], some (0x0000, [0, 0x80000000000000000000000000000000, 0, 0x80000000000000000000000000000000])) := by decide

/-- V-C11, whose indices 15, 47, 31 are not in rising order. -/
theorem test_insert_lists_in_order : seen (step (blockWith Params.scenario []
    [.command 0x040123456789ABCDEFFEDCBA9876543210#136])) = some ([15, 31, 47], some (0x0000, [])) := by decide

/-- P5 step 2 (V-C12): four equal indices. -/
theorem test_insert_duplicates : seen (step (blockWith p64 []
    [.command 0x0480000000000000008000000000000000#136])) = some ([0], some (0x0000, [])) := by decide

/-- V-C3. -/
theorem test_query_one : seen (step (blockWith Params.scenario [12, 19, 26]
    [.command 0x0500000000000000050000000000000007#136])) = some ([12, 19, 26], some (0x0001, [])) := by decide

/-- V-C5: two of three set is not enough. -/
theorem test_query_zero : seen (step (blockWith Params.scenario [12, 19]
    [.command 0x0500000000000000050000000000000007#136])) = some ([12, 19], some (0x0000, [])) := by decide

/-- Rule R104: reset clears the cells and answers nothing. -/
theorem test_reset : seen (step (blockWith Params.scenario [12, 19] [.reset])) = some ([], none) := by decide

/-- The host's form: a record presented through withFetchWord runs as the first command after reset (V-C1). -/
theorem test_first_after_reset : seen (step (State.reset.withFetchWord 136 0x0400000000000000050000000000000007)) =
    some ([12, 19, 26], some (0x0000, [])) := by decide

/-! ## The written form (rule R53, rule R39) -/

theorem test_parse_decimal : parseLine "DERIVE 5, 7 # a comment".toList = some (.derive 5 7) := by decide
theorem test_parse_hex : parseLine "SET 0x2F".toList = some (.set 47) := by decide
theorem test_parse_two_operands : parseLine "SET 1, 2".toList = none := by decide
theorem test_parse_too_large : parseLine "SET 0x1_0000_0000_0000_0000".toList = none := by decide
theorem test_parse_program : parseProgram "# P1\nINSERT 5, 7\nTEST 12 # one cell".toList =
    some [.insert 5 7, .test 12] := by decide
theorem test_record_text : recordText 0x040123456789ABCDEFFEDCBA9876543210#136 =
    "0x04_0123456789ABCDEF_FEDCBA9876543210".toList := by decide
theorem test_header_text : headerText ⟨.indexOutOfRange, false, []⟩ = "0x0100".toList := by decide

/-! ## Witnesses: each shows a concrete state and operands that meet the hypotheses of a statement -/

theorem witness_DecodeOfEncodeIsTheCommand : (Instr.set 12).wellFormed = true := by decide
theorem witness_EncodeOfDecodeIsTheRecord : decode 0x01000000000000000C0000000000000000#136 = .ok (.set 12) := by decide
theorem witness_DecodeFollowsItsTable_set : (0x01000000000000000C0000000000000000#136).toNat =
    (0x01#8).toNat * 2 ^ 128 + (12 : Word).toNat * 2 ^ 64 + (0 : Word).toNat ∧ (0 : Word) = 0 := by decide
theorem witness_DecodeFollowsItsTable_test : (0x02000000000000000C0000000000000000#136).toNat =
    (0x02#8).toNat * 2 ^ 128 + (12 : Word).toNat * 2 ^ 64 + (0 : Word).toNat ∧ (0 : Word) = 0 := by decide
theorem witness_DecodeFollowsItsTable_derive : (0x0300000000000000050000000000000007#136).toNat =
    (0x03#8).toNat * 2 ^ 128 + (5 : Word).toNat * 2 ^ 64 + (7 : Word).toNat := by decide
theorem witness_DecodeFollowsItsTable_insert : (0x0400000000000000050000000000000007#136).toNat =
    (0x04#8).toNat * 2 ^ 128 + (5 : Word).toNat * 2 ^ 64 + (7 : Word).toNat := by decide
theorem witness_DecodeFollowsItsTable_query : (0x0500000000000000050000000000000007#136).toNat =
    (0x05#8).toNat * 2 ^ 128 + (5 : Word).toNat * 2 ^ 64 + (7 : Word).toNat := by decide
theorem witness_DecodeFollowsItsTable_reserved_y : (0x02000000000000000C8000000000000000#136).toNat =
    (0x02#8).toNat * 2 ^ 128 + (12 : Word).toNat * 2 ^ 64 + (0x8000000000000000 : Word).toNat ∧
    (0x8000000000000000 : Word) ≠ 0 := by decide
theorem witness_DecodeFollowsItsTable_reserved_op : (0x06FFFFFFFFFFFFFFFF0000000000000001#136).toNat =
    (0x06#8).toNat * 2 ^ 128 + (0xFFFFFFFFFFFFFFFF : Word).toNat * 2 ^ 64 + (1 : Word).toNat ∧
    ((0x06#8).toNat = 0 ∨ 6 ≤ (0x06#8).toNat) := by decide
theorem witness_DecodeReadsTheOneRowSelected : decode 0x0300000000000000050000000000000007#136 = .ok (.derive 5 7) ∧
    decode 0x0600000000000000000000000000000000#136 = .error (.reservedOp 6) := by decide
theorem witness_DecodeFollowsItsTable_rows : ∃ r ∈ opRows, r.selects (encode (.query 5 7)) = true := by decide
theorem witness_IllegalCommandExactly : (blockWith Params.scenario [47]
    [.command 0x0200000000000000300000000000000001#136, .reset]).pending =
    .command 0x0200000000000000300000000000000001#136 :: [.reset] := by decide
theorem witness_IndexOutOfRangeExactly : (block pMax []).params.m = 2 ^ 64 ∧
    (blockWith Params.scenario [] [.command (encode (.test 48))]).pending = .command (encode (.test 48)) :: [] := by decide
theorem witness_ErrorPriority : (blockWith Params.scenario [] [.command (recordOf 0x01 48 1)]).pending =
    .command (recordOf 0x01 48 1) :: [] := by decide
theorem witness_EveryCommandIsAnswered : (blockWith Params.scenario [] [.command (encode (.set 47))]).pending =
    .command (encode (.set 47)) :: [] ∧ decode (encode (.set 47)) = .ok (.set 47) ∧
    (47 : Word).toNat < (block Params.scenario []).params.m := by decide
theorem witness_EveryCommandIsAnswered_hash : (blockWith Params.scenario [] [.command (encode (.insert 5 7))]).pending =
    .command (encode (.insert 5 7)) :: [] ∧ decode (encode (.insert 5 7)) = .ok (.insert 5 7) := by decide
theorem witness_SetCommand : (47 : Word).toNat < (block Params.scenario []).params.m ∧
    (block Params.scenario []).params.m ≤ (48 : Word).toNat := by decide
theorem witness_SetCommand_reserved : (1 : Word) ≠ 0 ∧ (blockWith Params.scenario [] [.command (recordOf 0x01 47 1)]).pending =
    .command (recordOf 0x01 47 1) :: [] := by decide
theorem witness_TestCommand : (0 : Word).toNat < (block p1 []).params.m ∧ (block p1 []).params.m ≤ (1 : Word).toNat := by decide
theorem witness_TestCommand_reserved : (1 : Word) ≠ 0 ∧
    (blockWith Params.scenario [] [.command (recordOf 0x02 48 1)]).pending = .command (recordOf 0x02 48 1) :: [] := by decide
theorem witness_SetIdempotentAndCommutes : (47 : Word).toNat < (block Params.scenario []).params.m := by decide
theorem witness_TestReadsWhatWasSet : (47 : Word).toNat < (block Params.scenario []).params.m := by decide

/-- From reset, a list that sets other cells: SET 46, INSERT 5, 7 (indices 12, 19, 26) and an illegal record leave 47 alone. -/
theorem witness_TestReadsWhatWasSet_reset : (47 : Word).toNat < Params.scenario.m ∧
    ∀ c ∈ [encode (.set 46), encode (.insert 5 7), 0#136],
      decode c ≠ .ok (.set 47) ∧ ∀ h1 h2 : Word, decode c = .ok (.insert h1 h2) →
        ∀ i : Nat, 1 ≤ i → i ≤ Params.scenario.k →
          (h1.toNat + i * h2.toNat) % 2 ^ 64 % Params.scenario.m ≠ (47 : Word).toNat := by
  have hs : decode (encode (.set 46)) = .ok (.set 46) := by decide
  have hi : decode (encode (.insert 5 7)) = .ok (.insert 5 7) := by decide
  have hz : decode 0#136 = .error (.reservedOp 0) := by decide
  refine ⟨by decide, fun c hc => ?_⟩
  simp only [List.mem_cons, List.not_mem_nil, or_false] at hc
  rcases hc with rfl | rfl | rfl
  · rw [hs]; exact ⟨by decide, fun _ _ h => by cases h⟩
  · rw [hi]
    refine ⟨by decide, fun h1 h2 h i h1i hi3 => ?_⟩
    cases h
    have : i = 1 ∨ i = 2 ∨ i = 3 := by
      have : i ≤ 3 := hi3
      omega
    rcases this with rfl | rfl | rfl <;> decide
  · rw [hz]; exact ⟨by decide, fun _ _ h => by cases h⟩

theorem witness_DeriveCommand : 1 ≤ 3 ∧ 3 ≤ (block Params.scenario []).params.k := by decide
/-- The ends of the range, k = n and k = 0; what `derive` gives at 0 is the model's choice (log entry 14). -/
theorem witness_DeriveOfFewerIsAPrefix : (3 : Nat) ≤ 3 ∧ (0 : Nat) ≤ 3 := by decide
theorem witness_PowerOfTwoIndexIsLowBits : p64.m = 2 ^ 6 ∧ p1.m = 2 ^ 0 ∧ pMax.m = 2 ^ 64 := by decide
theorem witness_ComposedEqualElementary : ([26, 12, 19] : List Word).Perm
    ((derivedBeats Params.scenario 5 7).map (·.index)) := by decide
theorem witness_QueryRepeats : (block Params.scenario [12]).params = (blockWith Params.scenario [12] [.reset]).params ∧
    (block Params.scenario [12]).bits = (blockWith Params.scenario [12] [.reset]).bits := by decide

/-- Between the two QUERYs: a SET that is out of range, a TEST and an illegal record. -/
theorem witness_QueryRepeats_between : ∀ c ∈ [encode (.set 48), encode (.test 3), 0#136],
    (∀ x : Word, decode c = .ok (.set x) → (block Params.scenario []).params.m ≤ x.toNat) ∧
      ∀ g1 g2 : Word, decode c ≠ .ok (.insert g1 g2) := by
  have hs : decode (encode (.set 48)) = .ok (.set 48) := by decide
  have ht : decode (encode (.test 3)) = .ok (.test 3) := by decide
  have hz : decode 0#136 = .error (.reservedOp 0) := by decide
  intro c hc
  simp only [List.mem_cons, List.not_mem_nil, or_false] at hc
  rcases hc with rfl | rfl | rfl
  · rw [hs]; exact ⟨fun x h => (by cases h; decide), fun _ _ h => by cases h⟩
  · rw [ht]; exact ⟨fun x h => (by cases h), fun _ _ h => by cases h⟩
  · rw [hz]; exact ⟨fun x h => (by cases h), fun _ _ h => by cases h⟩

theorem witness_OutOfRangeConfigurationBuildsNoBlock_in :
    ((1 ≤ 1 ∧ 1 ≤ 2 ^ 64) ∧ (1 ≤ 2 ^ 64 - 1 ∧ 2 ^ 64 - 1 ≤ 2 ^ 64 - 1)) ∧
    ((1 ≤ 2 ^ 64 ∧ 2 ^ 64 ≤ 2 ^ 64) ∧ (1 ≤ 1 ∧ 1 ≤ 2 ^ 64 - 1)) := by decide
theorem witness_OutOfRangeConfigurationBuildsNoBlock_out :
    ¬ ((1 ≤ 0 ∧ 0 ≤ 2 ^ 64) ∧ (1 ≤ 3 ∧ 3 ≤ 2 ^ 64 - 1)) ∧ ¬ ((1 ≤ 48 ∧ 48 ≤ 2 ^ 64) ∧ (1 ≤ 0 ∧ 0 ≤ 2 ^ 64 - 1)) ∧
    ¬ ((1 ≤ 2 ^ 64 + 1 ∧ 2 ^ 64 + 1 ≤ 2 ^ 64) ∧ (1 ≤ 3 ∧ 3 ≤ 2 ^ 64 - 1)) ∧
    ¬ ((1 ≤ 48 ∧ 48 ≤ 2 ^ 64) ∧ (1 ≤ 2 ^ 64 ∧ 2 ^ 64 ≤ 2 ^ 64 - 1)) := by decide
theorem witness_CellsOnlyRise : (∀ rest, (blockWith Params.scenario [12] [.command 0#136]).pending ≠ .reset :: rest) ∧
    (block Params.scenario [12]).bits.read 12 = true :=
  ⟨fun _ h => (by cases h), by decide⟩
theorem witness_WhoReadsAndWritesTheCells : (blockWith Params.scenario [12] [.command 0#136]).pending =
    .command 0#136 :: [] ∧ decode 0#136 = .error (.reservedOp 0) := by decide
theorem witness_WhoReadsAndWritesTheCells_instr : ∃ h1 h2 : Word, Instr.insert 5 7 = .insert h1 h2 := ⟨5, 7, rfl⟩
theorem witness_CommandFrame_set : ¬ (inRange Params.scenario (directIndex 12) = true ∧ 13 = directIndex 12) := by decide
theorem witness_CommandFrame_insert : 13 ∉ derivedIndices Params.scenario 5 7 := by decide
theorem witness_CommandFrame_reader : (∀ x : Word, Instr.query 5 7 ≠ .set x) ∧
    ∀ h1 h2 : Word, Instr.query 5 7 ≠ .insert h1 h2 :=
  ⟨fun _ h => (by cases h), fun _ _ h => by cases h⟩
theorem witness_ResetClearsEveryCell : (blockWith Params.scenario [12] [.reset, .command 0#136]).pending =
    .reset :: [.command 0#136] ∧ (47 : Word).toNat < Params.scenario.m := by decide
theorem witness_EveryStepKeepsTheArray : (blockWith Params.scenario [12, 47] [.reset]).Inv ∧
    step (blockWith Params.scenario [12, 47] [.reset]) = .next (block Params.scenario []) :=
  ⟨by decide, rfl⟩
theorem witness_EveryStepKeepsResponsesShaped :
    (∀ r ∈ (blockWith Params.scenario [12] [.reset]).responses, r.WellShaped Params.scenario) ∧
    step (blockWith Params.scenario [12] [.reset]) = .next (block Params.scenario []) :=
  ⟨by decide, rfl⟩
theorem witness_StepRunsTheDecodedCommand : (blockWith Params.scenario [] [.command (encode (.set 12)), .reset]).pending =
    .command (encode (.set 12)) :: [.reset] ∧ decode (encode (.set 12)) = .ok (.set 12) := by decide
theorem witness_IdleBlockWaits : (block Params.scenario [12]).pending = [] := by decide
theorem witness_StepDependsOnRecordAndCellsOnly :
    (blockWith Params.scenario [12] [.command (encode (.test 12))]).params =
      (blockWith Params.scenario [12] [.command (encode (.test 12)), .reset]).params ∧
    (blockWith Params.scenario [12] [.command (encode (.test 12))]).bits =
      (blockWith Params.scenario [12] [.command (encode (.test 12)), .reset]).bits ∧
    (blockWith Params.scenario [12] [.command (encode (.test 12))]).pending = .command (encode (.test 12)) :: [] ∧
    (blockWith Params.scenario [12] [.command (encode (.test 12)), .reset]).pending =
      .command (encode (.test 12)) :: [.reset] := by decide
theorem witness_ResponseLayout : (derivedBeats Params.scenario 5 7)[0]? = some ⟨12, 12⟩ ∧
    (derivedBeats Params.scenario 5 7)[2]? = some ⟨26, 26⟩ := by decide

end Sys2Proof.Tests
end

section
/-! SUPPORT. The decoder on the record of a command, and the record a table word stands for. -/

namespace Sys2Proof

/-- The decoder reads back the record of every command (rules R44, R50). -/
@[simp] theorem decode_encode (i : Instr) : decode (encode i) = .ok i := by
  cases i with
  | set x | test x => simp [decode, encode, decodeIndexed, opField_recordOf, xField_recordOf, yField_recordOf]
  | derive h1 h2 | insert h1 h2 | query h1 h2 =>
    simp [decode, encode, opField_recordOf, xField_recordOf, yField_recordOf]

/-- The number of a record stands for that record: no bit of its 136 is dropped (rule R39). -/
@[simp] theorem tableRecord_toNat (c : Record) : tableRecord 136 c.toNat = c := by
  rw [tableRecord, Nat.mod_eq_of_lt c.isLt, BitVec.ofNat_toNat, BitVec.setWidth_eq]

end Sys2Proof
end

section
/-! SUPPORT. The scope statements (00_scope.md): which pairs (M, K) build a block, and the step on the record of a command. -/

namespace Sys2Proof

/-- A pair in range builds the block with exactly that M and K (rules R5, R6). -/
theorem build?_of_inRange {m k : Nat} (hm : 1 ≤ m ∧ m ≤ 2 ^ 64) (hk : 1 ≤ k ∧ k ≤ 2 ^ 64 - 1) :
    Params.build? m k = some ⟨m, k, hm, hk⟩ := by
  rw [Params.build?, dif_pos hm, dif_pos hk]

/-- Whatever is built carries the pair it was built from. -/
theorem build?_eq_some {m k : Nat} {p : Params} (h : Params.build? m k = some p) : p.m = m ∧ p.k = k := by
  unfold Params.build? at h
  split at h
  · split at h
    · cases h; exact ⟨rfl, rfl⟩
    · cases h
  · cases h

/-- Settles O29: a block that was built carries its pair within the ranges, so a pair outside them builds none. -/
theorem outOfRangeConfigurationBuildsNoBlock : Obligations.OutOfRangeConfigurationBuildsNoBlock := by
  intro m k
  constructor
  · rintro ⟨hm, hk⟩
    exact ⟨_, build?_of_inRange hm hk, rfl, rfl⟩
  · intro hout
    refine Option.eq_none_iff_forall_ne_some.2 fun p hp => hout ?_
    obtain ⟨rfl, rfl⟩ := build?_eq_some hp
    exact ⟨p.m_range, p.k_range⟩

end Sys2Proof

namespace Sys2Proof.Machine

/-- Settles O39: the step on a legal record, and the record of a command decodes to that command. -/
theorem stepRunsTheDecodedCommand : Obligations.StepRunsTheDecodedCommand := by
  constructor
  · intro s c rest i hpending hdecode
    exact step_legal hpending hdecode
  · intro s i
    have hdecode : decode (tableRecord 136 (encode i).toNat) = .ok i := by rw [tableRecord_toNat, decode_encode]
    exact step_legal (withFetchWord_pending s 136 _) hdecode

end Sys2Proof.Machine
end

section
/-! SUPPORT. What a command, a record, an action and a list of records make of the cells: which cells are 1 afterwards, who
writes them and whose response reads them (rules R15 to R17), and that the invariant of the array is kept. -/

namespace Sys2Proof.Machine

/-! ## One command -/

theorem inRange_iff (p : Params) (index : Nat) : inRange p index = true ↔ index < p.m := decide_eq_true_iff

theorem storesTo_set_iff (p : Params) (x : Word) (a : Nat) : storesTo p (.set x) a = true ↔ x.toNat = a ∧ a < p.m := by
  rw [storesTo, Bool.and_eq_true, inRange_iff, beq_iff_eq, directIndex]
  constructor
  · rintro ⟨hx, rfl⟩; exact ⟨rfl, hx⟩
  · rintro ⟨rfl, hx⟩; exact ⟨hx, rfl⟩

theorem storesTo_insert_iff (p : Params) (h1 h2 : Word) (a : Nat) :
    storesTo p (.insert h1 h2) a = true ↔ a ∈ derivedIndices p h1 h2 := by
  rw [storesTo, List.contains_iff_mem]

/-- A command adds to the cells exactly those it stores to (rules R16, R68, R75). -/
theorem read_bitsAfter (p : Params) (mem : Memory) (i : Instr) (a : Nat) :
    (bitsAfter p mem i).read a = (storesTo p i a || mem.read a) := by
  cases i with
  | set x =>
    by_cases hx : x.toNat < p.m
    · by_cases ha : a = x.toNat <;> simp [bitsAfter, storesTo, inRange, directIndex, read_write, hx, ha]
    · simp [bitsAfter, storesTo, inRange, directIndex, hx]
  | insert h1 h2 => simp [bitsAfter, storesTo, read_setAll]
  | test x | derive h1 h2 | query h1 h2 => rfl

/-- A cell the command does not store to reads as before. -/
theorem read_bitsAfter_of_not_storesTo {p : Params} {i : Instr} {a : Nat} (h : storesTo p i a = false) (mem : Memory) :
    (bitsAfter p mem i).read a = mem.read a := by
  rw [read_bitsAfter, h, Bool.false_or]

/-- Only SET and INSERT write cells (rule R17). -/
theorem isSet_or_isInsert_of_bitsAfter_ne {p : Params} {mem : Memory} {i : Instr} (h : bitsAfter p mem i ≠ mem) :
    (∃ x : Word, i = .set x) ∨ ∃ h1 h2 : Word, i = .insert h1 h2 := by
  cases i with
  | set x => exact .inl ⟨x, rfl⟩
  | insert h1 h2 => exact .inr ⟨h1, h2, rfl⟩
  | test x | derive h1 h2 | query h1 h2 => exact absurd rfl h

/-- A command that answers an error writes no cell (rule R93). -/
theorem bitsAfter_of_status_ne_ok {p : Params} {mem : Memory} {i : Instr} (h : (responseOf p mem i).status ≠ .ok) :
    bitsAfter p mem i = mem := by
  cases i with
  | set x =>
    have hx : ¬ x.toNat < p.m := fun hx => h (by simp [responseOf, hx, Response.success])
    exact if_neg hx
  | insert h1 h2 => exact absurd rfl h
  | test x | derive h1 h2 | query h1 h2 => rfl

/-- What SET, DERIVE and INSERT answer does not depend on the cells (rule R17). -/
theorem responseOf_eq_of_no_read {i : Instr} (h : (∃ x : Word, i = .set x) ∨ (∃ h1 h2 : Word, i = .derive h1 h2) ∨
    ∃ h1 h2 : Word, i = .insert h1 h2) (p : Params) (mem other : Memory) :
    responseOf p mem i = responseOf p other i := by
  rcases h with ⟨x, rfl⟩ | ⟨h1, h2, rfl⟩ | ⟨h1, h2, rfl⟩ <;> rfl

/-- Every command keeps the invariant of the array: what it writes is a cell of the array (rules R15, R60, R71). -/
theorem inv_bitsAfter {s : State} (h : s.Inv) (i : Instr) : State.Inv { s with bits := bitsAfter s.params s.bits i } := by
  obtain ⟨hwf, hwithin⟩ := h
  cases i with
  | set x =>
    by_cases hx : x.toNat < s.params.m
    · rw [bitsAfter, if_pos hx]; exact ⟨wf_write hwf x.toNat true, within_write hwithin hx true⟩
    · rw [bitsAfter, if_neg hx]; exact ⟨hwf, hwithin⟩
  | insert h1 h2 => exact ⟨wf_setAll _ hwf, within_setAll _ hwithin fun _ => derivedIndices_lt⟩
  | test x | derive h1 h2 | query h1 h2 => exact ⟨hwf, hwithin⟩

/-- The block right after reset answers 0 to every QUERY: K ≥ 1, so there is a cell to read (rules R6, R76). -/
theorem responseOf_query_nil (p : Params) (h1 h2 : Word) : responseOf p [] (.query h1 h2) = .success false [] := by
  have hcell : (h1.toNat + 1 * h2.toNat) % 2 ^ 64 % p.m ∈ derivedIndices p h1 h2 :=
    (mem_derivedIndices p h1 h2 _).2 ⟨1, Nat.le_refl 1, p.k_range.1, rfl⟩
  have hall : (derivedIndices p h1 h2).all (fun a => Memory.read [] a) = false :=
    List.all_eq_false.2 ⟨_, hcell, by simp [read_nil]⟩
  rw [responseOf, hall]

/-! ## One record, legal or not -/

/-- A record adds to the cells exactly those it stores to. -/
theorem read_recordBits (p : Params) (mem : Memory) (c : Record) (a : Nat) :
    (recordBits p mem c).read a = (recordStoresTo p c a || mem.read a) := by
  unfold recordBits recordStoresTo
  cases decode c with
  | ok i => exact read_bitsAfter p mem i a
  | error e => rfl

/-- An illegal record changes no cell (rule R89). -/
theorem recordBits_of_illegal {c : Record} {e : DecodeError} (h : decode c = .error e) (p : Params) (mem : Memory) :
    recordBits p mem c = mem := by
  simp [recordBits, h]

/-- The cells a record stores to: that of a SET in range, or the K derived ones of an INSERT (rules R68, R75). -/
theorem recordStoresTo_iff (p : Params) (c : Record) (a : Nat) : recordStoresTo p c a = true ↔
    (∃ x : Word, decode c = .ok (.set x) ∧ x.toNat = a ∧ a < p.m) ∨
      ∃ (h1 h2 : Word) (i : Nat), decode c = .ok (.insert h1 h2) ∧ 1 ≤ i ∧ i ≤ p.k ∧
        a = (h1.toNat + i * h2.toNat) % 2 ^ 64 % p.m := by
  unfold recordStoresTo
  cases decode c with
  | error e => simp
  | ok i =>
    cases i with
    | set x => simp [storesTo_set_iff]
    | insert h1 h2 => simp [storesTo_insert_iff, mem_derivedIndices]
    | test x | derive h1 h2 | query h1 h2 => simp [storesTo]

theorem inv_recordBits {s : State} (h : s.Inv) (c : Record) :
    State.Inv { s with bits := recordBits s.params s.bits c } := by
  unfold recordBits
  cases decode c with
  | ok i => exact inv_bitsAfter h i
  | error e => exact h

/-! ## One host action, one step -/

theorem inv_resetWith (p : Params) : (State.resetWith p).Inv := ⟨rfl, rfl⟩

/-- Whatever action the block takes, it keeps the invariant of the array. -/
theorem inv_afterAction {s : State} (h : s.Inv) (a : HostAction) : (afterAction s a).Inv := by
  cases a with
  | reset => exact inv_resetWith s.params
  | command c => exact inv_recordBits h c

/-- All a step can do: it waits, or it takes the action presented first. -/
theorem step_cases (s : State) :
    (s.pending = [] ∧ step s = .next s) ∨
      ∃ (a : HostAction) (rest : List HostAction),
        s.pending = a :: rest ∧ step s = .next (afterAction { s with pending := rest } a) := by
  cases hp : s.pending with
  | nil => exact .inl ⟨rfl, step_waits hp⟩
  | cons a rest => exact .inr ⟨a, rest, rfl, step_action hp⟩

/-! ## A list of records -/

/-- Every record of a list gets one response (rule R33). -/
theorem length_responses_foldl_commands (cs : List Record) (s : State) :
    ((cs.map HostAction.command).foldl afterAction s).responses.length = s.responses.length + cs.length := by
  induction cs generalizing s with
  | nil => rfl
  | cons c cs ih =>
    rw [List.map_cons, List.foldl_cons, ih]
    simp only [afterAction, List.length_append, List.length_cons, List.length_nil]
    omega

/-- A list of records adds to the cells exactly those its records store to. -/
theorem read_foldl_commands (cs : List Record) (s : State) (a : Nat) :
    ((cs.map HostAction.command).foldl afterAction s).bits.read a =
      (cs.any (recordStoresTo s.params · a) || s.bits.read a) := by
  induction cs generalizing s with
  | nil => rfl
  | cons c cs ih =>
    rw [List.map_cons, List.foldl_cons, ih, afterAction_params, List.any_cons]
    simp only [afterAction, read_recordBits]
    ac_rfl

end Sys2Proof.Machine
end

section
/-! SUPPORT. The statements about the state (10_state.md). -/

namespace Sys2Proof.Machine

/-- Settles O36: a step waits or takes one action, and every action keeps the invariant. -/
theorem everyStepKeepsTheArray : Obligations.EveryStepKeepsTheArray := by
  intro s t hinv hstep
  rcases step_cases s with ⟨-, hs⟩ | ⟨a, rest, -, hs⟩
  · cases hs.symm.trans hstep
    exact hinv
  · cases hs.symm.trans hstep
    exact inv_afterAction (s := { s with pending := rest }) hinv a

/-- Settles O30: neither waiting nor any action changes M or K. -/
theorem constantsNeverChange : Obligations.ConstantsNeverChange := by
  intro s
  rcases step_cases s with ⟨-, hs⟩ | ⟨a, rest, -, hs⟩
  · exact ⟨s, hs, rfl⟩
  · exact ⟨_, hs, afterAction_params _ a⟩

/-- Settles O31: a command and a record only add cells, and the one action that takes some away is reset. -/
theorem cellsOnlyRise : Obligations.CellsOnlyRise := by
  constructor
  · intro i s
    refine ⟨_, exec_eq i s, fun a ha => ?_⟩
    rw [answer_bits, read_bitsAfter, ha, Bool.or_true]
  · intro s hnoReset
    rcases step_cases s with ⟨-, hs⟩ | ⟨act, rest, hp, hs⟩
    · exact ⟨s, hs, fun _ ha => ha⟩
    · cases act with
      | reset => exact absurd hp (hnoReset rest)
      | command c =>
        refine ⟨_, hs, fun a ha => ?_⟩
        rw [afterAction, read_recordBits, ha, Bool.or_true]

/-- Settles O32: who writes the cells, that an error writes none, and whose answer does not read them. -/
theorem whoReadsAndWritesTheCells : Obligations.WhoReadsAndWritesTheCells := by
  refine ⟨fun i s => ?_, fun s c rest e hp hd => ?_, fun i s other hi => ?_⟩
  · exact ⟨_, _, exec_eq i s, answer_responses _ _, isSet_or_isInsert_of_bitsAfter_ne, bitsAfter_of_status_ne_ok⟩
  · exact ⟨_, step_command hp, recordBits_of_illegal hd s.params s.bits⟩
  · refine ⟨_, _, exec_eq i s, exec_eq i _, ?_⟩
    rw [answer_responses, answer_responses, responseOf_eq_of_no_read hi s.params s.bits other]

/-- Settles O33: every cell outside those of `storesTo` reads as before, and TEST, DERIVE and QUERY store to none. -/
theorem commandFrame : Obligations.CommandFrame := by
  intro i s
  refine ⟨_, _, exec_eq i s, rfl, rfl, rfl, ?_, ?_, ?_⟩
  · rintro x rfl a ha
    have hkeep : storesTo s.params (.set x) a = false := by simpa [storesTo] using ha
    exact read_bitsAfter_of_not_storesTo hkeep s.bits
  · rintro h1 h2 rfl a ha
    have hkeep : storesTo s.params (.insert h1 h2) a = false := by simpa [storesTo] using ha
    exact read_bitsAfter_of_not_storesTo hkeep s.bits
  · intro a hset hinsert
    have hbits : bitsAfter s.params s.bits i = s.bits := by
      by_contra hne
      rcases isSet_or_isInsert_of_bitsAfter_ne hne with ⟨x, hx⟩ | ⟨h1, h2, hx⟩
      exacts [hset x hx, hinsert h1 h2 hx]
    rw [answer_bits, hbits]

/-- Settles O35: the state after reset, and TEST and QUERY on its empty array. -/
theorem resetClearsEveryCell : Obligations.ResetClearsEveryCell := by
  intro s rest hp
  refine ⟨_, step_reset hp, rfl, rfl, rfl, read_nil, fun x hx => ?_, fun h1 h2 => ?_⟩
  · exact execTest_below hx
  · rw [exec_eq, responseOf_query_nil]; rfl

/-- Settles O45: the run is a fold of its records, which answers each and adds exactly the cells they store to. -/
theorem cellsAfterARun : Obligations.CellsAfterARun := by
  intro p cs
  refine ⟨_, _, by rw [runOutcome, runFromReset, runCommands_eq], ?_, fun a => ?_⟩
  · rw [length_responses_foldl_commands]; exact Nat.zero_add _
  · rw [read_foldl_commands]
    simp only [resetWith_bits, read_nil, Bool.or_false, List.any_eq_true, resetWith_params, recordStoresTo_iff]

/-- Settles O37: the array after reset is empty, on every block. -/
theorem resetHasTheArray : Obligations.ResetHasTheArray := ⟨inv_resetWith, inv_resetWith Params.scenario⟩

end Sys2Proof.Machine
end

section
/-! SUPPORT. The statements about the order of the commands and about repeating one (20_memory.md): listing a cell a second
time, and listing two cells in either order, leave the same array, so presenting a record again changes no cell. -/

namespace Sys2Proof.Machine

/-! ## Listing cells, on any array -/

theorem list_list_same (mem : Memory) (i : Nat) : (mem.list i).list i = mem.list i := by
  induction mem with
  | nil => simp [Memory.list]
  | cons a rest ih =>
    rcases Nat.lt_trichotomy i a with h | rfl | h
    · simp [Memory.list, h]
    · simp [Memory.list]
    · simp [Memory.list, Nat.lt_asymm h, Nat.ne_of_gt h, ih]

/-- Listing the smaller cell first or last gives the same array, in canonical form or not. -/
theorem list_comm_of_lt (mem : Memory) {i j : Nat} (hij : i < j) : (mem.list i).list j = (mem.list j).list i := by
  induction mem with
  | nil => simp [Memory.list, hij, Nat.lt_asymm hij, Nat.ne_of_gt hij]
  | cons a rest ih =>
    rcases Nat.lt_trichotomy i a with hi | rfl | hi
    · by_cases hja : j < a
      · simp [Memory.list, hi, hij, hja, Nat.lt_asymm hij, Nat.ne_of_gt hij]
      · by_cases hj : j = a <;> simp [Memory.list, hi, hi.le, hj, hja, Nat.lt_asymm hij, Nat.ne_of_gt hij]
    · simp [Memory.list, Nat.lt_asymm hij, Nat.ne_of_gt hij]
    · have hj : a < j := hi.trans hij
      simp [Memory.list, Nat.lt_asymm hi, Nat.ne_of_gt hi, Nat.lt_asymm hj, Nat.ne_of_gt hj, ih]

theorem list_comm (mem : Memory) (i j : Nat) : (mem.list i).list j = (mem.list j).list i := by
  rcases Nat.lt_trichotomy i j with h | rfl | h
  exacts [list_comm_of_lt mem h, rfl, (list_comm_of_lt mem h).symm]

/-- Writing 1 to a cell again changes nothing. -/
theorem write_true_same (mem : Memory) (i : Nat) : (mem.write i true).write i true = mem.write i true :=
  list_list_same mem i

/-- Writing 1 to two cells in either order leaves the same array. -/
theorem write_true_comm (mem : Memory) (i j : Nat) :
    (mem.write i true).write j true = (mem.write j true).write i true := list_comm mem i j

theorem setAll_cons (mem : Memory) (i : Nat) (indices : List Nat) :
    mem.setAll (i :: indices) = (mem.write i true).setAll indices := rfl

/-- Writing 1 to a cell before the cells of a list or after them leaves the same array. -/
theorem setAll_write_true (indices : List Nat) (mem : Memory) (i : Nat) :
    (mem.write i true).setAll indices = (mem.setAll indices).write i true := by
  induction indices generalizing mem with
  | nil => rfl
  | cons j rest ih => rw [setAll_cons, setAll_cons, ← ih, write_true_comm]

/-- Writing 1 to the cells of a list again changes nothing. -/
theorem setAll_setAll_same (indices : List Nat) (mem : Memory) :
    (mem.setAll indices).setAll indices = mem.setAll indices := by
  induction indices generalizing mem with
  | nil => rfl
  | cons i rest ih =>
    calc (mem.setAll (i :: rest)).setAll (i :: rest)
        = (((mem.write i true).setAll rest).write i true).setAll rest := rfl
      _ = (((mem.write i true).write i true).setAll rest).setAll rest := by rw [← setAll_write_true]
      _ = ((mem.write i true).setAll rest).setAll rest := by rw [write_true_same]
      _ = mem.setAll (i :: rest) := ih _

/-! ## One command or record, twice -/

/-- A command finds its cells as it left them (rule R30). -/
theorem bitsAfter_bitsAfter_same (p : Params) (mem : Memory) (i : Instr) :
    bitsAfter p (bitsAfter p mem i) i = bitsAfter p mem i := by
  cases i with
  | set x => by_cases hx : x.toNat < p.m <;> simp [bitsAfter, hx, write_true_same]
  | insert h1 h2 => exact setAll_setAll_same _ mem
  | test x | derive h1 h2 | query h1 h2 => rfl

theorem recordBits_recordBits_same (p : Params) (mem : Memory) (c : Record) :
    recordBits p (recordBits p mem c) c = recordBits p mem c := by
  unfold recordBits
  cases decode c with
  | ok i => exact bitsAfter_bitsAfter_same p mem i
  | error e => rfl

/-- Settles O44: both runs are folds of the record's effect, and that effect on the cells is idempotent. -/
theorem repeatingACommandChangesNothing : Obligations.RepeatingACommandChangesNothing := by
  intro s c
  refine ⟨_, _, runCommands_eq s [c], runCommands_eq s [c, c], ?_, rfl⟩
  exact recordBits_recordBits_same s.params s.bits c

/-! ## A list of records, in order -/

@[simp] theorem pending_foldl_afterAction (actions : List HostAction) (s : State) :
    (actions.foldl afterAction s).pending = s.pending := by
  induction actions generalizing s with
  | nil => rfl
  | cons a rest ih => rw [List.foldl_cons, ih, afterAction_pending]

/-- Responses are only added at the end: no action takes back or moves one already given. -/
theorem responses_isPrefix_foldl_afterAction (actions : List HostAction) (s : State) :
    s.responses <+: (actions.foldl afterAction s).responses := by
  induction actions generalizing s with
  | nil => exact ⟨[], List.append_nil _⟩
  | cons a rest ih =>
    have ha : s.responses <+: (afterAction s a).responses := by
      cases a with
      | reset => exact ⟨[], List.append_nil _⟩
      | command c => exact ⟨_, rfl⟩
    exact ha.trans (ih _)

/-- A list of records runs to a next state: every record taken, one response for each added in order (rules R33, R113). -/
theorem exists_runCommands_eq_next (s : State) (cs : List Record) : ∃ (t : State) (rs : List Response),
    runCommands s cs = .next t ∧ t.responses = s.responses ++ rs ∧ rs.length = cs.length ∧ t.pending = [] := by
  obtain ⟨rs, hrs⟩ := responses_isPrefix_foldl_afterAction (cs.map .command) { s with pending := [] }
  have hlen := length_responses_foldl_commands cs { s with pending := [] }
  rw [← hrs, List.length_append] at hlen
  exact ⟨_, rs, runCommands_eq s cs, hrs.symm, Nat.add_left_cancel hlen, pending_foldl_afterAction _ _⟩

/-- One more record at the end of a list acts on the state the list has left. -/
theorem runCommands_append_one {s t : State} {cs : List Record} (h : runCommands s cs = .next t) (c : Record) :
    runCommands s (cs ++ [c]) = .next (afterAction t (.command c)) := by
  rw [runCommands_eq] at h ⊢
  cases h
  rw [List.map_append, List.foldl_append]
  rfl

/-- A block with nothing presented takes the one action presented to it. -/
theorem step_presented {t : State} (h : t.pending = []) (a : HostAction) :
    step { t with pending := [a] } = .next (afterAction t a) := by
  have ht : { t with pending := [] } = t := by rw [← h]
  rw [step_action (s := { t with pending := [a] }) rfl, ht]

/-- Settles O43: the list runs to a state with nothing presented, and both the longer run and the step take the last record
there. -/
theorem commandsTakeEffectInOrder : Obligations.CommandsTakeEffectInOrder := by
  intro s cs c
  obtain ⟨t, rs, hrun, hresponses, hlength, hpending⟩ := exists_runCommands_eq_next s cs
  refine ⟨t, afterAction t (.command c), rs, recordResponse t.params t.bits c, hrun, hresponses, hlength, hpending,
    runCommands_append_one hrun c, step_presented hpending (.command c), ?_⟩
  rw [afterAction, hresponses]

end Sys2Proof.Machine
end

section
/-! SUPPORT. The decoder on the record {op, x, y}, clause by clause of rule R50, and the statements about decoding
(30_encoding.md). -/

namespace Sys2Proof

/-! ## The clauses of rule R50 -/

theorem decodeIndexed_zero (command : Word → Instr) (x : Word) : decodeIndexed command x 0 = .ok (command x) := if_pos rfl

theorem decodeIndexed_of_ne_zero (command : Word → Instr) (x : Word) {y : Word} (h : y ≠ 0) :
    decodeIndexed command x y = .error (.reservedField y) := if_neg h

/-- Format I decodes only with `y` = 0 (rule R46). -/
theorem decodeIndexed_eq_ok_iff (command : Word → Instr) (x y : Word) (i : Instr) :
    decodeIndexed command x y = .ok i ↔ y = 0 ∧ command x = i := by
  rcases eq_or_ne y 0 with rfl | h
  · rw [decodeIndexed_zero]; simp
  · rw [decodeIndexed_of_ne_zero command x h]; exact ⟨nofun, fun ⟨hy, _⟩ => absurd hy h⟩

section
variable (op : BitVec 8) (x y : Word)

theorem decode_recordOf_set : decode (recordOf 0x01 x y) = decodeIndexed .set x y := by
  simp [decode, opField_recordOf, xField_recordOf, yField_recordOf]

theorem decode_recordOf_test : decode (recordOf 0x02 x y) = decodeIndexed .test x y := by
  simp [decode, opField_recordOf, xField_recordOf, yField_recordOf]

theorem decode_recordOf_derive : decode (recordOf 0x03 x y) = .ok (.derive x y) := decode_encode (.derive x y)

theorem decode_recordOf_insert : decode (recordOf 0x04 x y) = .ok (.insert x y) := decode_encode (.insert x y)

theorem decode_recordOf_query : decode (recordOf 0x05 x y) = .ok (.query x y) := decode_encode (.query x y)

/-- Every `op` outside 0x01 to 0x05 is reserved (rule R45). -/
theorem decode_recordOf_reserved {op : BitVec 8} (h : op.toNat = 0 ∨ 6 ≤ op.toNat) :
    decode (recordOf op x y) = .error (.reservedOp op) := by
  have hne : op ≠ 0x01 ∧ op ≠ 0x02 ∧ op ≠ 0x03 ∧ op ≠ 0x04 ∧ op ≠ 0x05 := by bv_omega
  obtain ⟨h1, h2, h3, h4, h5⟩ := hne
  rw [decode, opField_recordOf, if_neg h1, if_neg h2, if_neg h3, if_neg h4, if_neg h5]

/-- The split every fact about the decoder makes: one of the five values of `op`, or a reserved one (rules R44, R45). -/
theorem op_cases : op = 0x01 ∨ op = 0x02 ∨ op = 0x03 ∨ op = 0x04 ∨ op = 0x05 ∨ (op.toNat = 0 ∨ 6 ≤ op.toNat) := by
  bv_omega

end

theorem exists_recordOf_eq (c : Record) : ∃ (op : BitVec 8) (x y : Word), recordOf op x y = c :=
  ⟨_, _, _, recordOf_fields c⟩

/-! ## Both directions of the round trip -/

/-- A record decodes to a command exactly when it is that command's record. -/
theorem decode_eq_ok_iff (c : Record) (i : Instr) : decode c = .ok i ↔ encode i = c := by
  constructor
  · intro h
    obtain ⟨op, x, y, rfl⟩ := exists_recordOf_eq c
    rcases op_cases op with rfl | rfl | rfl | rfl | rfl | hop
    · rw [decode_recordOf_set, decodeIndexed_eq_ok_iff] at h
      obtain ⟨rfl, rfl⟩ := h; rfl
    · rw [decode_recordOf_test, decodeIndexed_eq_ok_iff] at h
      obtain ⟨rfl, rfl⟩ := h; rfl
    · cases (decode_recordOf_derive x y).symm.trans h; rfl
    · cases (decode_recordOf_insert x y).symm.trans h; rfl
    · cases (decode_recordOf_query x y).symm.trans h; rfl
    · cases (decode_recordOf_reserved x y hop).symm.trans h
  · rintro rfl
    exact decode_encode i

/-- Settles O1: each command's record carries its `op` and its operands in the fields the decoder reads. -/
theorem decodeOfEncodeIsTheCommand : Obligations.DecodeOfEncodeIsTheCommand := fun i _ => decode_encode i

/-- Settles O2: a record is its three fields, and format I decodes only with `y` = 0. -/
theorem encodeOfDecodeIsTheRecord : Obligations.EncodeOfDecodeIsTheRecord := fun c i => (decode_eq_ok_iff c i).1

/-! ## The match and mask rows of rule R44 -/

/-- Every row's mask keeps `op`. -/
theorem opField_eq_of_selects {r : OpRow} (hr : r ∈ opRows) {c : Record} (h : r.selects c = true) :
    opField c = opField r.pattern := by
  simp only [opRows_eq, List.mem_cons, List.not_mem_nil, or_false] at hr
  rcases hr with rfl | rfl | rfl | rfl | rfl
  · rw [((selects_index _ _ c).1 h).1, opField_recordOf]
  · rw [((selects_index _ _ c).1 h).1, opField_recordOf]
  · rw [(selects_hash _ _ c).1 h, opField_recordOf]
  · rw [(selects_hash _ _ c).1 h, opField_recordOf]
  · rw [(selects_hash _ _ c).1 h, opField_recordOf]

/-- No two rows have the same `op`. -/
theorem opRows_eq_of_opField_eq : ∀ r ∈ opRows, ∀ q ∈ opRows, opField r.pattern = opField q.pattern → r = q := by decide

/-- The record of a command selects the row of its mnemonic. -/
theorem exists_row_selects_encode (i : Instr) : ∃ r ∈ opRows, r.selects (encode i) = true ∧ r.mnemonic = i.mnemonic := by
  rw [opRows_eq]
  cases i with
  | set x => exact ⟨_, by simp, (selects_index "SET" 0x01 _).2 ⟨opField_recordOf _ _ _, yField_recordOf _ _ _⟩, rfl⟩
  | test x => exact ⟨_, by simp, (selects_index "TEST" 0x02 _).2 ⟨opField_recordOf _ _ _, yField_recordOf _ _ _⟩, rfl⟩
  | derive h1 h2 => exact ⟨_, by simp, (selects_hash "DERIVE" 0x03 _).2 (opField_recordOf _ _ _), rfl⟩
  | insert h1 h2 => exact ⟨_, by simp, (selects_hash "INSERT" 0x04 _).2 (opField_recordOf _ _ _), rfl⟩
  | query h1 h2 => exact ⟨_, by simp, (selects_hash "QUERY" 0x05 _).2 (opField_recordOf _ _ _), rfl⟩

/-- The decoder refuses exactly the records that select no row. -/
theorem legalRecord_eq_true_iff_decode (c : Record) : legalRecord c = true ↔ ∃ i, decode c = .ok i := by
  constructor
  · intro h
    obtain ⟨op, x, y, rfl⟩ := exists_recordOf_eq c
    rw [legalRecord_iff, opField_recordOf, yField_recordOf] at h
    rcases h with ⟨rfl, rfl⟩ | ⟨rfl, rfl⟩ | rfl | rfl | rfl
    exacts [⟨_, decode_encode (.set x)⟩, ⟨_, decode_encode (.test x)⟩, ⟨_, decode_recordOf_derive x y⟩,
      ⟨_, decode_recordOf_insert x y⟩, ⟨_, decode_recordOf_query x y⟩]
  · rintro ⟨i, h⟩
    obtain rfl := (decode_eq_ok_iff c i).1 h
    obtain ⟨r, hr, hsel, -⟩ := exists_row_selects_encode i
    exact List.any_eq_true.2 ⟨r, hr, hsel⟩

theorem legalRecord_eq_false_iff_decode (c : Record) : legalRecord c = false ↔ ∃ e, decode c = .error e := by
  rw [← Bool.not_eq_true, legalRecord_eq_true_iff_decode]
  cases decode c with
  | ok i => simp
  | error e => simp

/-- The illegal records by number: a reserved `op`, or `op` 1 or 2 with `y` not 0 (rules R45, R46). -/
theorem legalRecord_eq_false_iff (c : Record) : legalRecord c = false ↔
    (c.toNat / 2 ^ 128 = 0 ∨ 6 ≤ c.toNat / 2 ^ 128) ∨
      ((c.toNat / 2 ^ 128 = 1 ∨ c.toNat / 2 ^ 128 = 2) ∧ c.toNat % 2 ^ 64 ≠ 0) := by
  rw [← Bool.not_eq_true, legalRecord_iff]
  simp only [BitVec.ofNat_eq_ofNat, ← BitVec.toNat_inj, toNat_opField, toNat_yField, BitVec.toNat_ofNat]
  omega

/-- Settles O3: a row keeps `op` and no two rows share one, a record is its three fields, and each clause of the decoder. -/
theorem decodeFollowsItsTable : Obligations.DecodeFollowsItsTable := by
  refine ⟨fun c r q hr hq hrc hqc => ?_, fun c => ?_, fun op x y c hc => ?_⟩
  · exact opRows_eq_of_opField_eq r hr q hq ((opField_eq_of_selects hr hrc).symm.trans (opField_eq_of_selects hq hqc))
  · obtain ⟨op, x, y, rfl⟩ := exists_recordOf_eq c
    exact ⟨op, x, y, toNat_recordOf op x y⟩
  · obtain rfl : c = recordOf op x y := BitVec.eq_of_toNat_eq (hc.trans (toNat_recordOf op x y).symm)
    refine ⟨?_, ?_, ?_, ?_, ?_, ?_, decode_recordOf_reserved x y⟩
    · rintro rfl rfl; exact decode_encode (.set x)
    · rintro rfl rfl; exact decode_encode (.test x)
    · rintro rfl; exact decode_recordOf_derive x y
    · rintro rfl; exact decode_recordOf_insert x y
    · rintro rfl; exact decode_recordOf_query x y
    · rintro (rfl | rfl) hy
      · rw [decode_recordOf_set, decodeIndexed_of_ne_zero _ x hy]
      · rw [decode_recordOf_test, decodeIndexed_of_ne_zero _ x hy]

/-- Settles O4: a record that decodes is its command's record, which selects that command's row; one that does not is
illegal, and an illegal record selects no row. -/
theorem decodeReadsTheOneRowSelected : Obligations.DecodeReadsTheOneRowSelected := by
  constructor
  · intro c i h
    obtain rfl := (decode_eq_ok_iff c i).1 h
    exact exists_row_selects_encode i
  · intro c e h r hr
    exact Bool.eq_false_iff.2 (List.any_eq_false.1 ((legalRecord_eq_false_iff_decode c).2 ⟨e, h⟩) r hr)

/-- Settles O5: the seven vectors, each by its own test. -/
theorem sampleRecordsDecode : Obligations.SampleRecordsDecode :=
  ⟨Tests.test_decode_set, Tests.test_decode_test, Tests.test_decode_derive, Tests.test_decode_insert,
    Tests.test_decode_query, Tests.test_decode_zero, Tests.test_decode_set_y⟩

end Sys2Proof
end

section
/-! SUPPORT. The forms a response can take, its bit layout (rule R48), and the statements about responses. -/

namespace Sys2Proof.Machine

/-! ## The forms of a response -/

/-- All a command can answer: success without a beat, IndexOutOfRange, or for DERIVE its K beats. -/
theorem responseOf_cases (p : Params) (mem : Memory) (i : Instr) :
    (∃ b, responseOf p mem i = .success b []) ∨ responseOf p mem i = .failure .indexOutOfRange ∨
      ∃ h1 h2, i = .derive h1 h2 ∧ responseOf p mem i = .success false (derivedBeats p h1 h2) := by
  cases i with
  | set x =>
    by_cases hx : x.toNat < p.m
    · exact .inl ⟨false, if_pos hx⟩
    · exact .inr (.inl (if_neg hx))
  | test x =>
    by_cases hx : x.toNat < p.m
    · exact .inl ⟨mem.read x.toNat, if_pos hx⟩
    · exact .inr (.inl (if_neg hx))
  | derive h1 h2 => exact .inr (.inr ⟨h1, h2, rfl, rfl⟩)
  | insert h1 h2 => exact .inl ⟨false, rfl⟩
  | query h1 h2 => exact .inl ⟨_, rfl⟩

theorem responseOf_family_of_ne_derive (p : Params) (mem : Memory) {i : Instr}
    (h : ∀ h1 h2 : Word, i ≠ .derive h1 h2) : (responseOf p mem i).family = [] := by
  rcases responseOf_cases p mem i with ⟨b, hr⟩ | hr | ⟨h1, h2, rfl, -⟩
  · rw [hr]; rfl
  · rw [hr]; rfl
  · exact absurd rfl (h h1 h2)

/-- No command that runs answers IllegalCommand (rule R86). -/
theorem responseOf_status_ne_illegalCommand (p : Params) (mem : Memory) (i : Instr) :
    (responseOf p mem i).status ≠ .illegalCommand := by
  rcases responseOf_cases p mem i with ⟨b, hr⟩ | hr | ⟨h1, h2, -, hr⟩ <;> rw [hr] <;> exact nofun

theorem recordResponse_of_illegal {c : Record} {e : DecodeError} (h : decode c = .error e) (p : Params) (mem : Memory) :
    recordResponse p mem c = .failure .illegalCommand := by
  simp [recordResponse, h]

theorem recordResponse_of_legal {c : Record} {i : Instr} (h : decode c = .ok i) (p : Params) (mem : Memory) :
    recordResponse p mem c = responseOf p mem i := by
  simp [recordResponse, h]

/-- IllegalCommand is the answer exactly to the records that do not decode (rule R89). -/
theorem recordResponse_status_eq_illegalCommand_iff (p : Params) (mem : Memory) (c : Record) :
    (recordResponse p mem c).status = .illegalCommand ↔ ∃ e, decode c = .error e := by
  cases hd : decode c with
  | ok i =>
    rw [recordResponse_of_legal hd]
    exact ⟨fun h => absurd h (responseOf_status_ne_illegalCommand p mem i), nofun⟩
  | error e => exact ⟨fun _ => ⟨e, rfl⟩, fun _ => by rw [recordResponse_of_illegal hd]; rfl⟩

/-- Settles O7: the records that do not decode are the illegal ones, and one of them changes no cell. -/
theorem illegalCommandExactly : Obligations.IllegalCommandExactly := by
  intro s c rest hp
  refine ⟨_, _, step_command hp, rfl, ?_, fun hstatus => ?_⟩
  · rw [recordResponse_status_eq_illegalCommand_iff, ← legalRecord_eq_false_iff_decode, legalRecord_eq_false_iff]
  · obtain ⟨e, he⟩ := (recordResponse_status_eq_illegalCommand_iff _ _ c).1 hstatus
    exact ⟨recordResponse_of_illegal he _ _, recordBits_of_illegal he _ _, rfl, rfl⟩

/-! ## The shape of a response -/

theorem wellShaped_success_nil (p : Params) (b : Bool) : (Response.success b []).WellShaped p :=
  ⟨fun h => absurd rfl h, .inl rfl, nofun⟩

theorem wellShaped_failure (p : Params) (e : CommandError) : (Response.failure e).WellShaped p :=
  ⟨fun _ => ⟨rfl, rfl⟩, .inl rfl, nofun⟩

/-- The K beats of DERIVE carry each its g mod M (rules R47, R59). -/
theorem wellShaped_success_derivedBeats (p : Params) (h1 h2 : Word) :
    (Response.success false (derivedBeats p h1 h2)).WellShaped p := by
  refine ⟨fun h => absurd rfl h, .inr ⟨length_derivedBeats p h1 h2, rfl⟩, fun b hb => ?_⟩
  obtain ⟨g, -, rfl⟩ := List.mem_map.1 hb
  exact toNat_beatOf_index p g

theorem wellShaped_recordResponse (p : Params) (mem : Memory) (c : Record) : (recordResponse p mem c).WellShaped p := by
  cases hd : decode c with
  | error e => rw [recordResponse_of_illegal hd]; exact wellShaped_failure p _
  | ok i =>
    rw [recordResponse_of_legal hd]
    rcases responseOf_cases p mem i with ⟨b, hr⟩ | hr | ⟨h1, h2, -, hr⟩ <;> rw [hr]
    exacts [wellShaped_success_nil p b, wellShaped_failure p _, wellShaped_success_derivedBeats p h1 h2]

/-- Settles O38: a step adds no response, or that of one record, which is well shaped. -/
theorem everyStepKeepsResponsesShaped : Obligations.EveryStepKeepsResponsesShaped := by
  intro s t hall hstep
  rcases step_cases s with ⟨-, hs⟩ | ⟨a, rest, -, hs⟩
  · cases hs.symm.trans hstep
    exact hall
  · cases hs.symm.trans hstep
    cases a with
    | reset => exact hall
    | command c =>
      intro r hr
      rcases List.mem_append.1 hr with hr | hr
      · exact hall r hr
      · obtain rfl := List.mem_singleton.1 hr
        exact wellShaped_recordResponse s.params s.bits c

/-! ## The layout of a response -/

/-- The header is its three fields side by side (rule R48). -/
theorem header_eq_append (r : Response) : r.header = (r.status.code ++ 0#7) ++ resultBit r.result := by
  unfold Response.header
  cases r.status <;> cases r.result <;> decide

/-- A beat is its two words side by side (rule R48). -/
theorem beat_layout_eq_append (b : Beat) : b.layout = b.g ++ b.index := by
  apply BitVec.eq_of_getLsbD_eq
  intro i hi
  rw [BitVec.getLsbD_append]
  simp only [Beat.layout, BitVec.getLsbD_or, BitVec.getLsbD_shiftLeft, BitVec.getLsbD_setWidth]
  by_cases h : i < 64
  · simp [h, hi]
  · have hg : i - 64 < 128 := by omega
    have hindex : b.index.getLsbD i = false := BitVec.getLsbD_of_ge _ _ (Nat.not_lt.1 h)
    simp [h, hi, hg, hindex]

theorem header_status (r : Response) : r.header.extractLsb' 8 8 = r.status.code := by
  rw [header_eq_append, BitVec.extractLsb'_append_eq_of_le (by decide), BitVec.extractLsb'_append_eq_left]

theorem header_reserved (r : Response) : r.header.extractLsb' 1 7 = 0 := by
  rw [header_eq_append, BitVec.extractLsb'_append_eq_of_le (by decide)]
  exact BitVec.extractLsb'_append_eq_of_add_le (by decide)

theorem header_result (r : Response) : r.header.getLsbD 0 = r.result := by
  rw [header_eq_append, BitVec.getLsbD_append]
  cases r.result <;> rfl

theorem beat_layout_g (b : Beat) : b.layout.extractLsb' 64 64 = b.g := by
  rw [beat_layout_eq_append, BitVec.extractLsb'_append_eq_left]

theorem beat_layout_index (b : Beat) : b.layout.extractLsb' 0 64 = b.index := by
  rw [beat_layout_eq_append, BitVec.extractLsb'_append_eq_of_add_le (by decide), BitVec.extractLsb'_eq_self]

/-- Settles O47: the fields of the header and of a beat, and the beats of what each command answers. -/
theorem responseLayout : Obligations.ResponseLayout := by
  refine ⟨fun r => ⟨header_status r, header_reserved r, header_result r, List.length_map _, fun i b hb => ?_⟩,
    fun i s => ⟨_, _, exec_eq i s, answer_responses _ _, ?_, fun hi => ?_⟩⟩
  · exact ⟨b.layout, by rw [Response.layout, List.getElem?_map, hb]; rfl, beat_layout_g b, beat_layout_index b⟩
  · rintro ⟨h1, h2, rfl⟩
    rw [Response.layout, List.length_map]
    exact length_derivedBeats s.params h1 h2
  · rw [Response.layout, responseOf_family_of_ne_derive _ _ hi, List.map_nil]

end Sys2Proof.Machine
end

section
/-! SUPPORT. Texts of digits and of lines, read back; and the statement about the written form (rules R39, R53). -/

namespace Sys2Proof.Machine

/-! ## Digits -/

theorem digitValue_hexChar : ∀ n < 16, digitValue (hexChar n) = some n := by decide

@[simp] theorem length_hexText (digits v : Nat) : (hexText digits v).length = digits := by
  induction digits generalizing v with
  | zero => rfl
  | succ d ih => rw [hexText, List.length_append, ih]; rfl

theorem exists_hexChar_of_mem_hexText {digits v : Nat} {c : Char} (h : c ∈ hexText digits v) :
    ∃ n < 16, c = hexChar n := by
  induction digits generalizing v with
  | zero => exact absurd h List.not_mem_nil
  | succ d ih =>
    rw [hexText, List.mem_append, List.mem_singleton] at h
    rcases h with h | rfl
    exacts [ih h, ⟨v % 16, Nat.mod_lt _ (by decide), rfl⟩]

/-- Reading the digits of a number goes on with the text behind them, the number added to what was read before. -/
theorem digitsValue_hexText_append {digits v : Nat} (h : v < 16 ^ digits) (acc : Nat) (text : List Char) :
    digitsValue 16 acc (hexText digits v ++ text) = digitsValue 16 (acc * 16 ^ digits + v) text := by
  induction digits generalizing v text with
  | zero =>
    obtain rfl : v = 0 := by omega
    simp [hexText]
  | succ d ih =>
    have hlast : v % 16 < 16 := Nat.mod_lt _ (by decide)
    have hfront : v / 16 < 16 ^ d := by omega
    have hsum : (acc * 16 ^ d + v / 16) * 16 + v % 16 = acc * 16 ^ (d + 1) + v := by
      rw [pow_succ, Nat.add_mul, Nat.mul_assoc, Nat.add_assoc, Nat.div_add_mod']
    rw [hexText, List.append_assoc, ih hfront, List.singleton_append, digitsValue, digitValue_hexChar _ hlast]
    simp only [hlast, if_true, hsum]

theorem withoutSeparators_append (a b : List Char) :
    withoutSeparators (a ++ b) = withoutSeparators a ++ withoutSeparators b := List.filter_append a b

/-! ## Parts of a line -/

/-- A character that separates nothing and starts no comment. -/
def plainChar (c : Char) : Bool := c != '#' && c != ',' && c != '_' && !isBlank c

/-- A mnemonic or an operand: at least one character, all of them plain. -/
abbrev IsPart (text : List Char) : Prop := text ≠ [] ∧ text.all plainChar = true

theorem plainChar_hexChar : ∀ n < 16, plainChar (hexChar n) = true := by decide

theorem all_plainChar_hexText (digits v : Nat) : (hexText digits v).all plainChar = true := by
  refine List.all_eq_true.2 fun c hc => ?_
  obtain ⟨n, hn, rfl⟩ := exists_hexChar_of_mem_hexText hc
  exact plainChar_hexChar n hn

theorem isPart_operandText (x : Word) : IsPart (operandText x) := by
  refine ⟨nofun, ?_⟩
  rw [operandText, List.all_append, all_plainChar_hexText]; decide

section
variable {w : List Char} (h : w.all plainChar = true)
include h

theorem not_mem_of_all_plainChar {c : Char} (hc : plainChar c = false) : c ∉ w := fun hw =>
  Bool.false_ne_true (hc.symm.trans (List.all_eq_true.1 h c hw))

theorem not_isBlank_of_all_plainChar : ∀ c ∈ w, (!isBlank c) = true := fun c hc =>
  (Bool.and_eq_true_iff.1 (List.all_eq_true.1 h c hc)).2

theorem withoutSeparators_of_all_plainChar : withoutSeparators w = w :=
  List.filter_eq_self.2 fun c hc => decide_eq_true fun hsep => not_mem_of_all_plainChar h (by decide) (hsep ▸ hc)

end

@[simp] theorem withoutSeparators_hexText (digits v : Nat) : withoutSeparators (hexText digits v) = hexText digits v :=
  withoutSeparators_of_all_plainChar (all_plainChar_hexText digits v)

/-- An operand is read back from its numeral. -/
theorem operandValue_operandText (x : Word) : operandValue (operandText x) = some x := by
  have hne : hexText 16 x.toNat ≠ [] := List.ne_nil_of_length_pos (by rw [length_hexText]; decide)
  have hvalue : digitsValue 16 0 (hexText 16 x.toNat) = some x.toNat := by
    have := digitsValue_hexText_append (digits := 16) x.isLt 0 []
    rwa [List.append_nil, Nat.zero_mul, Nat.zero_add, digitsValue] at this
  have hnumeral : numeralValue (operandText x) = some x.toNat := by
    simp [operandText, numeralValue, hne, hvalue]
  rw [operandValue, hnumeral]
  simp only [x.isLt, if_true, BitVec.ofNat_toNat, BitVec.setWidth_eq]

/-! ## Blanks and separators -/

/-- Nothing is dropped before a part. -/
theorem dropWhile_isBlank_part_append {w : List Char} (h : IsPart w) (text : List Char) :
    (w ++ text).dropWhile isBlank = w ++ text := by
  obtain ⟨hne, hw⟩ := h
  cases w with
  | nil => exact absurd rfl hne
  | cons c rest =>
    have hc := not_isBlank_of_all_plainChar hw c List.mem_cons_self
    exact List.dropWhile_cons_of_neg (by simpa using hc)

theorem isPart_reverse {w : List Char} (h : IsPart w) : IsPart w.reverse := by
  obtain ⟨hne, hw⟩ := h
  exact ⟨mt List.reverse_eq_nil_iff.1 hne, by rw [List.all_reverse]; exact hw⟩

/-- A text that begins and ends with a part has no space at its ends. -/
theorem trimBlanks_between_parts {m w : List Char} (hm : IsPart m) (hw : IsPart w) (gap : List Char) :
    trimBlanks (m ++ (gap ++ w)) = m ++ (gap ++ w) := by
  have hend : (m ++ (gap ++ w)).reverse.dropWhile isBlank = (m ++ (gap ++ w)).reverse := by
    rw [← List.append_assoc, List.reverse_append]
    exact dropWhile_isBlank_part_append (isPart_reverse hw) _
  rw [trimBlanks, dropWhile_isBlank_part_append hm, hend, List.reverse_reverse]

/-- The space before an operand is no part of it. -/
theorem trimBlanks_blank_part {w : List Char} (h : IsPart w) : trimBlanks (' ' :: w) = w := by
  have hfront : (' ' :: w).dropWhile isBlank = w := by
    rw [List.dropWhile_cons_of_pos (by decide), ← List.append_nil w, dropWhile_isBlank_part_append h]
  have hend : w.reverse.dropWhile isBlank = w.reverse := by
    rw [← List.append_nil w.reverse, dropWhile_isBlank_part_append (isPart_reverse h)]
  rw [trimBlanks, hfront, hend, List.reverse_reverse]

theorem splitOnChar_of_not_mem {sep : Char} {text : List Char} (h : sep ∉ text) : splitOnChar sep text = [text] := by
  induction text with
  | nil => rfl
  | cons c rest ih =>
    obtain ⟨hc, hrest⟩ := List.ne_and_not_mem_of_not_mem_cons h
    rw [splitOnChar, if_neg (Ne.symm hc), ih hrest]

theorem splitOnChar_append_sep {sep : Char} {text : List Char} (h : sep ∉ text) (rest : List Char) :
    splitOnChar sep (text ++ sep :: rest) = text :: splitOnChar sep rest := by
  induction text with
  | nil => exact if_pos rfl
  | cons c text ih =>
    obtain ⟨hc, htext⟩ := List.ne_and_not_mem_of_not_mem_cons h
    rw [List.cons_append, splitOnChar, if_neg (Ne.symm hc), ih htext]

/-! ## Lines -/

/-- A line of a mnemonic, a space and a rest that ends with an operand is read as that mnemonic and the operands between the
commas of the rest. -/
theorem parseLine_mnemonic_rest {m w : List Char} (hm : IsPart m) (hw : IsPart w) {front : List Char}
    (hfront : '#' ∉ front) : parseLine (m ++ ' ' :: (front ++ w)) =
      commandOf m ((splitOnChar ',' (' ' :: (front ++ w))).map trimBlanks) := by
  have hnoComment : '#' ∉ m ++ ' ' :: (front ++ w) := by
    simp [hfront, not_mem_of_all_plainChar hm.2 (c := '#') (by decide),
      not_mem_of_all_plainChar hw.2 (c := '#') (by decide)]
  have hcode : (m ++ ' ' :: (front ++ w)).takeWhile (· ≠ '#') = m ++ ' ' :: (front ++ w) :=
    List.takeWhile_eq_self_iff.2 fun c hc => decide_eq_true fun h => hnoComment (h ▸ hc)
  have hline : lineText (m ++ ' ' :: (front ++ w)) = m ++ ' ' :: (front ++ w) := by
    rw [lineText, hcode]
    exact trimBlanks_between_parts hm hw (' ' :: front)
  have hnonblank := not_isBlank_of_all_plainChar hm.2
  rw [parseLine, hline, List.takeWhile_append_of_pos hnonblank, List.dropWhile_append_of_pos hnonblank]
  simp [isBlank]

theorem comma_not_mem_blank_part {w : List Char} (hw : IsPart w) : ',' ∉ ' ' :: w := by
  simp [not_mem_of_all_plainChar hw.2 (c := ',') (by decide)]

/-- A line of format I (rule R53). -/
theorem parseLine_one_operand {m w : List Char} (hm : IsPart m) (hw : IsPart w) :
    parseLine (m ++ [' '] ++ w) = commandOf m [w] := by
  have hline := parseLine_mnemonic_rest hm hw (front := []) List.not_mem_nil
  rw [List.nil_append, splitOnChar_of_not_mem (comma_not_mem_blank_part hw), List.map_singleton,
    trimBlanks_blank_part hw] at hline
  rwa [List.append_assoc]

/-- A line of format H (rule R53). -/
theorem parseLine_two_operands {m w v : List Char} (hm : IsPart m) (hw : IsPart w) (hv : IsPart v) :
    parseLine (m ++ [' '] ++ w ++ [',', ' '] ++ v) = commandOf m [w, v] := by
  have hnoComment : '#' ∉ w ++ [',', ' '] := by
    simp [not_mem_of_all_plainChar hw.2 (c := '#') (by decide)]
  have hsplit : splitOnChar ',' (' ' :: (w ++ [',', ' '] ++ v)) = [' ' :: w, ' ' :: v] := by
    rw [List.append_assoc, ← splitOnChar_of_not_mem (comma_not_mem_blank_part hv)]
    exact splitOnChar_append_sep (comma_not_mem_blank_part hw) (' ' :: v)
  have hline := parseLine_mnemonic_rest hm hv hnoComment
  rw [hsplit, List.map_cons, List.map_singleton, trimBlanks_blank_part hw, trimBlanks_blank_part hv] at hline
  simpa using hline

theorem oneOperand_operandText (command : Word → Instr) (x : Word) :
    oneOperand command [operandText x] = some (command x) := by
  simp [oneOperand, operandValue_operandText]

theorem twoOperands_operandText (command : Word → Word → Instr) (x y : Word) :
    twoOperands command [operandText x, operandText y] = some (command x y) := by
  simp [twoOperands, operandValue_operandText]

/-- Every command is read back from its line. -/
theorem parseLine_written (i : Instr) : parseLine (written i) = some i := by
  cases i with
  | set x =>
    have hline := parseLine_one_operand (m := ['S', 'E', 'T']) (by decide) (isPart_operandText x)
    exact hline.trans (by simp [commandOf, oneOperand_operandText])
  | test x =>
    have hline := parseLine_one_operand (m := ['T', 'E', 'S', 'T']) (by decide) (isPart_operandText x)
    exact hline.trans (by simp [commandOf, oneOperand_operandText])
  | derive h1 h2 =>
    have hline := parseLine_two_operands (m := ['D', 'E', 'R', 'I', 'V', 'E']) (by decide) (isPart_operandText h1)
      (isPart_operandText h2)
    exact hline.trans (by simp [commandOf, twoOperands_operandText])
  | insert h1 h2 =>
    have hline := parseLine_two_operands (m := ['I', 'N', 'S', 'E', 'R', 'T']) (by decide) (isPart_operandText h1)
      (isPart_operandText h2)
    exact hline.trans (by simp [commandOf, twoOperands_operandText])
  | query h1 h2 =>
    have hline := parseLine_two_operands (m := ['Q', 'U', 'E', 'R', 'Y']) (by decide) (isPart_operandText h1)
      (isPart_operandText h2)
    exact hline.trans (by simp [commandOf, twoOperands_operandText])

/-! ## Records -/

/-- The 34 digits of a record are the number of its three fields (rule R39). -/
theorem digitsValue_fields (op : BitVec 8) (x y : Word) :
    digitsValue 16 0 (hexText 2 op.toNat ++ (hexText 16 x.toNat ++ hexText 16 y.toNat)) =
      some (recordOf op x y).toNat := by
  rw [digitsValue_hexText_append op.isLt, digitsValue_hexText_append x.isLt, ← List.append_nil (hexText 16 y.toNat),
    digitsValue_hexText_append y.isLt, digitsValue, toNat_recordOf]
  have : ((0 * 16 ^ 2 + op.toNat) * 16 ^ 16 + x.toNat) * 16 ^ 16 + y.toNat =
      op.toNat * 2 ^ 128 + x.toNat * 2 ^ 64 + y.toNat := by omega
  rw [this]

theorem parseRecord_of_digits {digits : List Char} {n : Nat} (hlen : (withoutSeparators digits).length = 34)
    (hvalue : digitsValue 16 0 (withoutSeparators digits) = some n) :
    parseRecord ('0' :: 'x' :: digits) = some (BitVec.ofNat 136 n) := by
  simp [parseRecord, hlen, hvalue]

/-- Every record is read back from its digits. -/
theorem parseRecord_recordText (c : Record) : parseRecord (recordText c) = some c := by
  have hdigits : withoutSeparators (hexText 2 (opField c).toNat ++ ['_'] ++ hexText 16 (xField c).toNat ++ ['_'] ++
      hexText 16 (yField c).toNat) =
      hexText 2 (opField c).toNat ++ (hexText 16 (xField c).toNat ++ hexText 16 (yField c).toNat) := by
    have hsep : withoutSeparators ['_'] = [] := by decide
    simp only [withoutSeparators_append, withoutSeparators_hexText, hsep, List.nil_append, List.append_assoc]
  have hparse := parseRecord_of_digits (by rw [hdigits]; simp)
    (hdigits ▸ digitsValue_fields (opField c) (xField c) (yField c))
  rw [recordOf_fields, BitVec.ofNat_toNat, BitVec.setWidth_eq] at hparse
  simpa [recordText] using hparse

/-- Settles O6: a line splits into its mnemonic and its operands, and digits give their number back. -/
theorem writtenFormReadsBack : Obligations.WrittenFormReadsBack := ⟨parseLine_written, parseRecord_recordText⟩

end Sys2Proof.Machine
end

section
/-! SUPPORT. The derived values, the beats of DERIVE, and runs with a DERIVE in them; the statements about the deriver
(40_hash_deriver.md). -/

namespace Sys2Proof.Machine

/-! ## The arithmetic of rules R57 to R61 -/

/-- Reducing early or late gives the same value (rule R61). -/
theorem derivedValue_eq_add_mul (h1 h2 : Word) (i : Nat) : derivedValue h1 h2 i = h1 + BitVec.ofNat 64 i * h2 := by
  rw [derivedValue, BitVec.ofNat_add, BitVec.ofNat_mul, BitVec.ofNat_toNat, BitVec.ofNat_toNat, BitVec.setWidth_eq,
    BitVec.setWidth_eq]

/-- Each value is the one of the index before, from an offset one stride further on. -/
theorem derivedValue_succ (h1 h2 : Word) (i : Nat) : derivedValue h1 h2 (i + 1) = derivedValue (h1 + h2) h2 i := by
  rw [derivedValue_eq_add_mul, derivedValue_eq_add_mul, BitVec.ofNat_add, BitVec.add_mul, BitVec.one_mul]
  ac_rfl

theorem derivedValue_zero_index (h1 h2 : Word) : derivedValue h1 h2 0 = h1 := by
  rw [derivedValue_eq_add_mul, BitVec.zero_mul, BitVec.add_zero]

theorem derivedValue_zero_stride (h1 : Word) (i : Nat) : derivedValue h1 0 i = h1 := by
  rw [derivedValue_eq_add_mul, mul_zero, add_zero]

theorem derive_succ (h1 h2 : Word) (k : Nat) : derive h1 h2 (k + 1) = (h1 + h2) :: derive (h1 + h2) h2 k := by
  rw [derive, List.range_succ_eq_map, List.map_cons, List.map_map, derivedValue_succ, derivedValue_zero_index, derive]
  exact congrArg _ (List.map_congr_left fun j _ => derivedValue_succ h1 h2 (j + 1))

/-- Settles O17: 64-bit sums and products are those of the integers, wrapped, and a stride moves the offset on. -/
theorem deriveAccumulates : Obligations.DeriveAccumulates := ⟨derivedValue_eq_add_mul, derive_succ⟩

/-- Settles O18: the value at a place of the list does not depend on the count. -/
theorem deriveOfFewerIsAPrefix : Obligations.DeriveOfFewerIsAPrefix := by
  intro h1 h2 k n hkn
  rw [derive, ← List.map_take, List.take_range, Nat.min_eq_left hkn, derive]

/-- Settles O19: M ≥ 1, so a remainder by M is below it. -/
theorem derivedIndexIsACell : Obligations.DerivedIndexIsACell := indexOf_lt

/-- Settles O20: a remainder by 2^b keeps the bits below b. -/
theorem powerOfTwoIndexIsLowBits : Obligations.PowerOfTwoIndexIsLowBits := by
  intro p b g hm j
  rw [indexOf, hm, Nat.testBit_mod_two_pow, BitVec.testBit_toNat]

/-! ## The beats of DERIVE -/

theorem getElem?_derivedBeats {p : Params} {i : Nat} (hi : 1 ≤ i) (hk : i ≤ p.k) (h1 h2 : Word) :
    (derivedBeats p h1 h2)[i - 1]? = some (beatOf p (derivedValue h1 h2 i)) := by
  have hplace : (List.range p.k)[i - 1]? = some (i - 1) := List.getElem?_range (by omega)
  rw [derivedBeats, hashFamily, derive, List.getElem?_map, List.getElem?_map, hplace, Option.map_some, Option.map_some,
    Nat.sub_add_cancel hi]

/-- Settles O16: the record of DERIVE, what it answers, and its i-th beat. -/
theorem deriveCommand : Obligations.DeriveCommand := by
  refine ⟨decode_recordOf_derive,
    fun s h1 h2 => ⟨_, execDerive_eq s h1 h2, length_derivedBeats s.params h1 h2, fun i hi hk => ?_⟩⟩
  refine ⟨_, getElem?_derivedBeats hi hk h1 h2, toNat_derivedValue h1 h2 i, ?_⟩
  rw [toNat_beatOf_index, toNat_derivedValue]

/-! ## DERIVE within a run -/

theorem recordBits_of_legal {c : Record} {i : Instr} (h : decode c = .ok i) (p : Params) (mem : Memory) :
    recordBits p mem c = bitsAfter p mem i := by
  simp [recordBits, h]

/-- A DERIVE is answered and leaves everything else as it was (rules R64, R65). -/
theorem afterAction_derive (s : State) (h1 h2 : Word) : afterAction s (.command (encode (.derive h1 h2))) =
    s.answer (.success false (derivedBeats s.params h1 h2)) := by
  rw [afterAction, recordBits_of_legal (decode_encode _), recordResponse_of_legal (decode_encode _)]
  rfl

@[simp] theorem params_foldl_afterAction (actions : List HostAction) (s : State) :
    (actions.foldl afterAction s).params = s.params := by
  induction actions generalizing s with
  | nil => rfl
  | cons a rest ih => rw [List.foldl_cons, ih, afterAction_params]

/-- Nothing reads the responses given back: whatever they are, a list of actions does the same and adds the same to them
(log entry 5). -/
theorem exists_foldl_afterAction_responses (actions : List HostAction) (s : State) :
    ∃ added : List Response, ∀ earlier : List Response, actions.foldl afterAction { s with responses := earlier } =
      { actions.foldl afterAction s with responses := earlier ++ added } := by
  induction actions generalizing s with
  | nil => exact ⟨[], fun earlier => by rw [List.append_nil]; rfl⟩
  | cons a rest ih =>
    obtain ⟨added, h⟩ := ih (afterAction s a)
    cases a with
    | reset => exact ⟨added, h⟩
    | command c =>
      refine ⟨recordResponse s.params s.bits c :: added, fun earlier => ?_⟩
      rw [List.append_cons]
      exact h (earlier ++ [recordResponse s.params s.bits c])

/-- A list of actions between two DERIVEs with the same operands does what it does alone, and adds the same responses
between the two of DERIVE (rule R65). -/
theorem exists_foldl_afterAction_between_derives (between : List HostAction) (s : State) (h1 h2 : Word) :
    ∃ (r : Response) (rs : List Response), (between.foldl afterAction s).responses = s.responses ++ rs ∧
      List.foldl afterAction s
          (.command (encode (.derive h1 h2)) :: between ++ [.command (encode (.derive h1 h2))]) =
        { between.foldl afterAction s with responses := s.responses ++ (r :: rs ++ [r]) } := by
  obtain ⟨rs, hbetween⟩ := exists_foldl_afterAction_responses between s
  refine ⟨.success false (derivedBeats s.params h1 h2), rs, congrArg (·.responses) (hbetween s.responses), ?_⟩
  have hanswered := hbetween (s.responses ++ [.success false (derivedBeats s.params h1 h2)])
  rw [List.cons_append, List.foldl_cons, afterAction_derive, List.foldl_append, State.answer, hanswered, List.foldl_cons,
    afterAction_derive, List.foldl_nil]
  simp [State.answer]

/-- Settles O21: a DERIVE only answers, from its operands, M and K alone, and no action reads an answer. -/
theorem deriveRepeats : Obligations.DeriveRepeats := by
  intro s h1 h2 between
  obtain ⟨r, rs, hbetween, hboth⟩ := exists_foldl_afterAction_between_derives between { s with pending := [] } h1 h2
  exact ⟨_, _, r, rs, runActions_eq s _, runActions_eq s between, congrArg (·.bits) hboth, hbetween,
    congrArg (·.responses) hboth⟩

/-! ## The stride 0 -/

/-- With h2 = 0 the K derived indices coincide (rules R66, R80). -/
theorem derivedIndices_zero_stride (p : Params) (h1 : Word) :
    derivedIndices p h1 0 = List.replicate p.k (h1.toNat % p.m) := by
  simp only [derivedIndices, hashFamily, derive, derivedValue_zero_stride, List.map_const', List.length_range,
    List.map_replicate, indexOf]

/-- Settles O26: K ≥ 1, so the list of the indices holds h1 mod M, and nothing else. -/
theorem zeroStrideTouchesOneCell : Obligations.ZeroStrideTouchesOneCell := by
  intro s h1
  have hk : s.params.k ≠ 0 := Nat.one_le_iff_ne_zero.1 s.params.k_range.1
  constructor
  · refine ⟨_, execInsert_eq s h1 0, fun a => ?_⟩
    rw [answer_bits, read_setAll, derivedIndices_zero_stride]
    by_cases ha : a = h1.toNat % s.params.m <;> simp [ha, hk]
  · have hquery := execQuery_eq s h1 0
    rw [derivedIndices_zero_stride, List.all_replicate, if_neg hk] at hquery
    exact hquery

end Sys2Proof.Machine
end

section
/-! SUPPORT. The range error of SET and TEST (60_exceptions.md), and the statements about SET and TEST, one at a time and
within a run (41_bit_array.md). -/

namespace Sys2Proof.Machine

/-! ## IndexOutOfRange -/

/-- IndexOutOfRange is the answer exactly to SET and TEST with an index not below M (rules R71, R88). -/
theorem responseOf_status_eq_indexOutOfRange_iff (p : Params) (mem : Memory) (i : Instr) :
    (responseOf p mem i).status = .indexOutOfRange ↔ ∃ x : Word, (i = .set x ∨ i = .test x) ∧ p.m ≤ x.toNat := by
  cases i with
  | set x | test x =>
    by_cases hx : x.toNat < p.m
    · simp [responseOf, hx, Response.success]
    · simp [responseOf, hx, Nat.not_lt.1 hx, Response.failure, CommandError.status]
  | derive h1 h2 | insert h1 h2 | query h1 h2 => simp [responseOf, Response.success]

/-- The whole response is determined by this status: `result` is 0 and there is no beat. -/
theorem responseOf_eq_of_status_eq_indexOutOfRange {p : Params} {mem : Memory} {i : Instr}
    (h : (responseOf p mem i).status = .indexOutOfRange) : responseOf p mem i = .failure .indexOutOfRange := by
  rcases responseOf_cases p mem i with ⟨b, hr⟩ | hr | ⟨h1, h2, -, hr⟩
  · rw [hr] at h; cases h
  · exact hr
  · rw [hr] at h; cases h

theorem recordResponse_status_eq_indexOutOfRange_iff (p : Params) (mem : Memory) (c : Record) :
    (recordResponse p mem c).status = .indexOutOfRange ↔
      ∃ x : Word, (decode c = .ok (.set x) ∨ decode c = .ok (.test x)) ∧ p.m ≤ x.toNat := by
  cases hd : decode c with
  | ok i => simp [recordResponse_of_legal hd, responseOf_status_eq_indexOutOfRange_iff]
  | error e => simp [recordResponse_of_illegal hd, Response.failure, CommandError.status]

/-- Settles O8: which commands get this answer, that it leaves the cells alone, and that an index of 64 bits is below 2^64. -/
theorem indexOutOfRangeExactly : Obligations.IndexOutOfRangeExactly := by
  constructor
  · intro s c rest hp
    exact ⟨_, _, step_command hp, rfl, recordResponse_status_eq_indexOutOfRange_iff s.params s.bits c⟩
  · intro i s
    have hiff := responseOf_status_eq_indexOutOfRange_iff s.params s.bits i
    refine ⟨_, _, exec_eq i s, answer_responses _ _, hiff, fun hstatus => ?_, fun hm hstatus => ?_⟩
    · have hkeep := bitsAfter_of_status_ne_ok (p := s.params) (mem := s.bits) (i := i) (by rw [hstatus]; exact nofun)
      exact ⟨responseOf_eq_of_status_eq_indexOutOfRange hstatus, hkeep, rfl, rfl⟩
    · obtain ⟨x, -, hx⟩ := hiff.1 hstatus
      exact absurd x.isLt (Nat.not_lt.2 (hm ▸ hx))

/-! ## SET and TEST -/

/-- Settles O12: what SET does below M and at or above M, and its records with `y` 0 and not 0. -/
theorem setCommand : Obligations.SetCommand := by
  refine ⟨fun s x hx => ?_, fun s x hx => execSet_above hx, fun x => decode_encode (.set x), fun s x y rest hy hp => ?_⟩
  · exact ⟨_, execSet_below hx, rfl, rfl, rfl, fun a => read_write s.bits x.toNat a true⟩
  · exact step_illegal hp ((decode_recordOf_set x y).trans (decodeIndexed_of_ne_zero .set x hy))

/-- Settles O13: what TEST answers below M, there after reset, and at or above M, and its records with `y` 0 and not 0. -/
theorem testCommand : Obligations.TestCommand := by
  refine ⟨fun s x hx => execTest_below hx, fun s x hx => execTest_above hx, fun x => decode_encode (.test x),
    fun p x hx => execTest_below hx, fun s x y rest hy hp => ?_⟩
  exact step_illegal hp ((decode_recordOf_test x y).trans (decodeIndexed_of_ne_zero .test x hy))

/-! ## SET and TEST within a run -/

/-- The record of a command does what the command does. -/
theorem afterAction_encode (s : State) (i : Instr) : afterAction s (.command (encode i)) =
    State.answer { s with bits := bitsAfter s.params s.bits i } (responseOf s.params s.bits i) := by
  rw [afterAction, recordBits_of_legal (decode_encode i), recordResponse_of_legal (decode_encode i)]
  rfl

/-- Two SETs leave the same cells in either order, whether their indices are in range or not. -/
theorem bitsAfter_set_comm (p : Params) (mem : Memory) (x y : Word) :
    bitsAfter p (bitsAfter p mem (.set x)) (.set y) = bitsAfter p (bitsAfter p mem (.set y)) (.set x) := by
  by_cases hx : x.toNat < p.m <;> by_cases hy : y.toNat < p.m <;> simp [bitsAfter, hx, hy, write_true_comm]

/-- Settles O14: writing 1 to a cell again changes nothing, and writing 1 to two cells commutes. -/
theorem setIdempotentAndCommutes : Obligations.SetIdempotentAndCommutes := by
  constructor
  · intro s a
    refine ⟨_, _, runCommands_eq s _, runCommands_eq s _, ?_, rfl, fun ha => ?_⟩
    · exact recordBits_recordBits_same s.params s.bits (encode (.set a))
    · simp [afterAction_encode, responseOf, ha, Response.success]
  · intro s a b
    refine ⟨_, _, runCommands_eq s _, runCommands_eq s _, ?_, ?_⟩
    · simp [afterAction_encode, bitsAfter_set_comm s.params s.bits a b]
    · rw [params_foldl_afterAction, params_foldl_afterAction]

/-- A TEST after a list of records answers 1 exactly when one of them stores to its cell or the cell was 1 before. -/
theorem exists_runCommands_test {s : State} {x : Word} (hx : x.toNat < s.params.m) (cs : List Record) : ∃ t : State,
    runCommands s (cs ++ [encode (.test x)]) = .next t ∧ t.responses.getLast? =
      some (.success (cs.any (recordStoresTo s.params · x.toNat) || s.bits.read x.toNat) []) := by
  refine ⟨_, runCommands_append_one (runCommands_eq s cs) _, ?_⟩
  rw [afterAction_encode, answer_responses, List.getLast?_concat, params_foldl_afterAction, responseOf, if_pos hx,
    read_foldl_commands]

/-- Settles O15: what a TEST at the end of a run answers, when a SET of its cell is among the records before it, and when
none of them stores to its cell and the run is from reset. -/
theorem testReadsWhatWasSet : Obligations.TestReadsWhatWasSet := by
  constructor
  · intro s x cs hx
    obtain ⟨t, hrun, hlast⟩ := exists_runCommands_test hx (encode (.set x) :: cs)
    have hstores : recordStoresTo s.params (encode (.set x)) x.toNat = true :=
      (recordStoresTo_iff _ _ _).2 (.inl ⟨x, decode_encode _, rfl, hx⟩)
    rw [List.any_cons, hstores] at hlast
    exact ⟨t, hrun, hlast⟩
  · intro p x cs hx hnone
    obtain ⟨t, hrun, hlast⟩ := exists_runCommands_test (s := State.resetWith p) hx cs
    have hkeeps : cs.any (recordStoresTo p · x.toNat) = false := by
      refine List.any_eq_false.2 fun c hc hstores => ?_
      obtain ⟨hset, hinsert⟩ := hnone c hc
      rcases (recordStoresTo_iff p c x.toNat).1 hstores with ⟨y, hd, hy, -⟩ | ⟨h1, h2, i, hd, hi, hk, hindex⟩
      · exact hset (BitVec.eq_of_toNat_eq hy ▸ hd)
      · exact hinsert h1 h2 hd i hi hk hindex.symm
    rw [resetWith_params, hkeeps] at hlast
    exact ⟨t, hrun, hlast⟩

end Sys2Proof.Machine
end

section
/-! SUPPORT. INSERT and QUERY, one at a time, within a run, and against the SETs and TESTs of the same indices; the statements
about the composed commands (42_composed.md) and about which commands are answered OK (60_exceptions.md). -/

namespace Sys2Proof.Machine

/-! ## One command -/

/-- Settles O34: none of the three stores to a cell. -/
theorem readersNeverWrite : Obligations.ReadersNeverWrite := by
  intro s h1 h2 x
  exact ⟨⟨_, exec_eq (.query h1 h2) s, rfl⟩, ⟨_, exec_eq (.derive h1 h2) s, rfl⟩, ⟨_, exec_eq (.test x) s, rfl⟩⟩

/-- Settles O10: the step takes the record and answers it; a hash pair is never refused, and an index below M is in range. -/
theorem everyCommandIsAnswered : Obligations.EveryCommandIsAnswered := by
  intro s c rest hp
  refine ⟨_, _, step_command hp, rfl, rfl, fun h1 h2 hd => ?_, fun x hd hx => ?_⟩
  · rcases hd with hd | hd | hd <;> rw [recordResponse_of_legal hd] <;> rfl
  · rcases hd with hd | hd <;> rw [recordResponse_of_legal hd, responseOf, if_pos hx] <;> rfl

/-- Settles O22: the cells INSERT writes are those of its K derived indices. -/
theorem insertCommand : Obligations.InsertCommand := by
  refine ⟨decode_recordOf_insert, fun s h1 h2 => ⟨_, execInsert_eq s h1 h2, rfl, rfl, rfl, fun a => ?_⟩⟩
  rw [answer_bits, read_setAll, Bool.or_eq_true, decide_eq_true_iff, mem_derivedIndices, or_comm]

/-- The K derived cells are all 1, index by index (rule R76). -/
theorem all_read_derivedIndices_iff (p : Params) (mem : Memory) (h1 h2 : Word) :
    ((derivedIndices p h1 h2).all fun a => mem.read a) = true ↔
      ∀ i : Nat, 1 ≤ i → i ≤ p.k → mem.read ((h1.toNat + i * h2.toNat) % 2 ^ 64 % p.m) = true := by
  simp only [List.all_eq_true, mem_derivedIndices]
  constructor
  · intro h i hi hk
    exact h _ ⟨i, hi, hk, rfl⟩
  · rintro h _ ⟨i, hi, hk, rfl⟩
    exact h i hi hk

/-- Settles O23: QUERY answers the AND of its K derived cells, which is 0 on an empty array. -/
theorem queryCommand : Obligations.QueryCommand := by
  refine ⟨decode_recordOf_query, fun p h1 h2 => ?_, fun s h1 h2 => ?_⟩
  · rw [exec_eq, resetWith_params, resetWith_bits, responseOf_query_nil]; rfl
  · exact ⟨_, execQuery_eq s h1 h2, all_read_derivedIndices_iff s.params s.bits h1 h2⟩

/-! ## QUERY at the end of a run -/

/-- A record of INSERT stores to every derived index of its pair. -/
theorem recordStoresTo_of_insert {p : Params} {c : Record} {h1 h2 : Word} (hd : decode c = .ok (.insert h1 h2)) {a : Nat}
    (ha : a ∈ derivedIndices p h1 h2) : recordStoresTo p c a = true := by
  rw [recordStoresTo, hd]
  exact (storesTo_insert_iff p h1 h2 a).2 ha

/-- A QUERY is answered with the AND of its derived cells and leaves everything else as it was (rules R76, R81). -/
theorem afterAction_query (s : State) (h1 h2 : Word) : afterAction s (.command (encode (.query h1 h2))) =
    s.answer (.success ((derivedIndices s.params h1 h2).all fun a => s.bits.read a) []) :=
  afterAction_encode s (.query h1 h2)

/-- A QUERY after a list of records answers 1 exactly when each of its derived cells is stored to by one of them or was 1
before. -/
theorem exists_runCommands_query (s : State) (h1 h2 : Word) (cs : List Record) : ∃ (t : State) (all : Bool),
    runCommands s (cs ++ [encode (.query h1 h2)]) = .next t ∧ t.responses.getLast? = some (.success all []) ∧
      (all = true ↔ ∀ a ∈ derivedIndices s.params h1 h2,
        (∃ c ∈ cs, recordStoresTo s.params c a = true) ∨ s.bits.read a = true) := by
  have hrun := runCommands_append_one (runCommands_eq s cs) (encode (.query h1 h2))
  rw [afterAction_query] at hrun
  refine ⟨_, _, hrun, List.getLast?_concat, ?_⟩
  simp only [params_foldl_afterAction, read_foldl_commands, List.all_eq_true, Bool.or_eq_true, List.any_eq_true]

/-- Settles O24: the INSERT stores to every cell the QUERY reads. -/
theorem noFalseNegatives : Obligations.NoFalseNegatives := by
  intro s h1 h2 cs
  obtain ⟨t, all, hrun, hlast, hall⟩ := exists_runCommands_query s h1 h2 (encode (.insert h1 h2) :: cs)
  have htrue : all = true := hall.2 fun a ha =>
    .inl ⟨_, List.mem_cons_self, recordStoresTo_of_insert (decode_encode (.insert h1 h2)) ha⟩
  exact ⟨t, hrun, htrue ▸ hlast⟩

/-! ## The indices of DERIVE's beats -/

/-- The beats carry the derived indices, none of them cut (rules R47, R59). -/
theorem map_index_derivedBeats (p : Params) (h1 h2 : Word) :
    ((derivedBeats p h1 h2).map (·.index)).map BitVec.toNat = derivedIndices p h1 h2 := by
  rw [derivedBeats, derivedIndices, List.map_map, List.map_map]
  exact List.map_congr_left fun g _ => toNat_beatOf_index p g

/-- Settles O28: an INSERT of the pair among the records would have made the QUERY answer 1, and so do the SETs of the
indices DERIVE gives. -/
theorem zeroIsDefinitiveOneIsNot : Obligations.ZeroIsDefinitiveOneIsNot := by
  constructor
  · intro s h1 h2 cs
    obtain ⟨t, all, hrun, hlast, hall⟩ := exists_runCommands_query s h1 h2 cs
    refine ⟨t, all, hrun, hlast, fun hfalse c hc hd => ?_⟩
    have htrue : all = true := hall.2 fun a ha => .inl ⟨c, hc, recordStoresTo_of_insert hd ha⟩
    exact Bool.false_ne_true (hfalse.symm.trans htrue)
  · intro p h1 h2
    obtain ⟨t, all, hrun, hlast, hall⟩ := exists_runCommands_query (State.resetWith p) h1 h2
      (((derivedBeats p h1 h2).map (·.index)).map fun x => encode (.set x))
    refine ⟨_, t, fun c hc => ?_, hrun, ?_⟩
    · obtain ⟨x, -, rfl⟩ := List.mem_map.1 hc
      exact ⟨x, decode_encode (.set x)⟩
    · have htrue : all = true := hall.2 fun a ha => .inl <| by
        have hcell : a < p.m := derivedIndices_lt ha
        rw [resetWith_params, ← map_index_derivedBeats] at ha
        obtain ⟨x, hx, rfl⟩ := List.mem_map.1 ha
        exact ⟨_, List.mem_map_of_mem hx, (recordStoresTo_iff p _ _).2 (.inl ⟨x, decode_encode _, rfl, hcell⟩)⟩
      exact htrue ▸ hlast

/-! ## Records that change no cell -/

/-- A record that is no INSERT and no SET in range changes no cell (rule R17). -/
theorem recordBits_of_no_store {p : Params} {c : Record} (hset : ∀ x : Word, decode c = .ok (.set x) → p.m ≤ x.toNat)
    (hinsert : ∀ g1 g2 : Word, decode c ≠ .ok (.insert g1 g2)) (mem : Memory) : recordBits p mem c = mem := by
  cases hd : decode c with
  | error e => exact recordBits_of_illegal hd p mem
  | ok i =>
    rw [recordBits_of_legal hd]
    cases i with
    | set x => exact if_neg (Nat.not_lt.2 (hset x hd))
    | insert h1 h2 => exact absurd hd (hinsert h1 h2)
    | test x | derive h1 h2 | query h1 h2 => rfl

/-- Records that change no cell are each answered from the cells there were before the first of them. -/
theorem foldl_commands_of_recordBits_eq {cs : List Record} {s : State}
    (h : ∀ c ∈ cs, recordBits s.params s.bits c = s.bits) : (cs.map HostAction.command).foldl afterAction s =
      { s with responses := s.responses ++ cs.map (recordResponse s.params s.bits) } := by
  induction cs generalizing s with
  | nil => simp
  | cons c cs ih =>
    obtain ⟨hc, hcs⟩ := List.forall_mem_cons.1 h
    have hstep : afterAction s (.command c) = s.answer (recordResponse s.params s.bits c) := by
      rw [afterAction, hc, State.answer]
    rw [List.map_cons, List.foldl_cons, hstep, ih (s := s.answer _) hcs]
    simp [State.answer]

/-- Settles O27: QUERY answers from M, K and the cells, and between the two QUERYs no record changes a cell. -/
theorem queryRepeats : Obligations.QueryRepeats := by
  constructor
  · intro s q h1 h2 hparams hbits
    refine ⟨_, _, _, exec_eq _ s, exec_eq _ q, answer_responses _ _, ?_⟩
    rw [answer_responses, hparams, hbits]
  · intro s h1 h2 cs hcs
    have hquery : recordBits s.params s.bits (encode (.query h1 h2)) = s.bits := recordBits_of_legal (decode_encode _) _ _
    have hkeep : ∀ c ∈ encode (.query h1 h2) :: cs ++ [encode (.query h1 h2)], recordBits s.params s.bits c = s.bits := by
      simp only [List.cons_append, List.mem_cons, List.mem_append, List.not_mem_nil, or_false]
      rintro c (rfl | hc | rfl)
      · exact hquery
      · obtain ⟨hset, hinsert⟩ := hcs c hc
        exact recordBits_of_no_store hset hinsert s.bits
      · exact hquery
    refine ⟨_, recordResponse s.params s.bits (encode (.query h1 h2)), cs.map (recordResponse s.params s.bits),
      runCommands_eq s _, ?_⟩
    rw [foldl_commands_of_recordBits_eq (s := { s with pending := [] }) hkeep]
    simp

/-! ## INSERT as its K SETs, QUERY as its K TESTs -/

/-- Writing 1 to the cells of a list leaves the same array in whatever order. -/
theorem setAll_perm {l l' : List Nat} (h : l.Perm l') (mem : Memory) : mem.setAll l = mem.setAll l' :=
  h.foldl_eq' (fun i _ j _ m => write_true_comm m i j) mem

/-- SETs in range write 1 to the cells of their indices, one after another. -/
theorem bits_foldl_sets {xs : List Word} {s : State} (h : ∀ x ∈ xs, x.toNat < s.params.m) :
    (((xs.map fun x => encode (.set x)).map HostAction.command).foldl afterAction s).bits =
      s.bits.setAll (xs.map BitVec.toNat) := by
  induction xs generalizing s with
  | nil => rfl
  | cons x xs ih =>
    obtain ⟨hx, hxs⟩ := List.forall_mem_cons.1 h
    have hrest := ih (s := afterAction s (.command (encode (.set x)))) hxs
    rw [List.map_cons, List.map_cons, List.foldl_cons, hrest, afterAction_encode, answer_bits, bitsAfter, if_pos hx]
    rfl

/-- The SETs of DERIVE's indices, in any order, leave the cells of INSERT (rule R84). -/
theorem bits_foldl_sets_of_perm {s : State} {h1 h2 : Word} {order : List Word}
    (h : order.Perm ((derivedBeats s.params h1 h2).map (·.index))) :
    (((order.map fun x => encode (.set x)).map HostAction.command).foldl afterAction s).bits =
      s.bits.setAll (derivedIndices s.params h1 h2) := by
  have hindices : (order.map BitVec.toNat).Perm (derivedIndices s.params h1 h2) :=
    map_index_derivedBeats s.params h1 h2 ▸ h.map BitVec.toNat
  have hrange : ∀ x ∈ order, x.toNat < s.params.m := fun x hx =>
    derivedIndices_lt (hindices.mem_iff.1 (List.mem_map_of_mem hx))
  rw [bits_foldl_sets hrange, setAll_perm hindices]

/-- The AND of what the TESTs of DERIVE's indices answer is that of the derived cells (rule R84). -/
theorem all_result_tests (p : Params) (mem : Memory) (h1 h2 : Word) :
    ((derivedBeats p h1 h2).map fun b => recordResponse p mem (encode (.test b.index))).all (·.result) =
      (derivedIndices p h1 h2).all fun a => mem.read a := by
  have hresult : ∀ g : Word, (recordResponse p mem (encode (.test (beatOf p g).index))).result =
      mem.read (indexOf p g) := by
    intro g
    have hindex : (beatOf p g).index.toNat = indexOf p g := toNat_beatOf_index p g
    rw [recordResponse_of_legal (decode_encode _), responseOf, hindex, if_pos (indexOf_lt p g)]
    rfl
  simp only [derivedBeats, derivedIndices, List.all_map, Function.comp_def, hresult]

/-- Settles O25: writing 1 to cells commutes, so the SETs may come in any order, and no TEST changes what the next one
reads. -/
theorem composedEqualElementary : Obligations.ComposedEqualElementary := by
  intro s h1 h2
  refine ⟨_, execDerive_eq s h1 h2, fun order horder => ?_, ?_⟩
  · exact ⟨_, _, execInsert_eq s h1 h2, runCommands_eq s _, bits_foldl_sets_of_perm (s := { s with pending := [] }) horder⟩
  · have hkeep : ∀ c ∈ (derivedBeats s.params h1 h2).map fun b => encode (.test b.index),
        recordBits s.params s.bits c = s.bits := by
      intro c hc
      obtain ⟨b, -, rfl⟩ := List.mem_map.1 hc
      exact recordBits_of_legal (decode_encode _) _ _
    refine ⟨_, _, _, (derivedBeats s.params h1 h2).map fun b => recordResponse s.params s.bits (encode (.test b.index)),
      execQuery_eq s h1 h2, rfl, runCommands_eq s _, ?_, ?_, ?_⟩
    · rw [foldl_commands_of_recordBits_eq (s := { s with pending := [] }) hkeep, List.map_map]
      rfl
    · rw [List.length_map, length_derivedBeats]
    · exact (all_result_tests s.params s.bits h1 h2).symm

end Sys2Proof.Machine
end

section
/-! SUPPORT. The statements about errors and about what a step depends on (60_exceptions.md): the order of the error checks, that
a failed command leaves nothing but its response, and that every step answers. -/

namespace Sys2Proof

/-- A format I record with `y` not 0 is illegal, whichever command it names (rule R46). -/
theorem decode_recordOf_reservedField {op : BitVec 8} (hop : op = 0x01 ∨ op = 0x02) (x : Word) {y : Word} (hy : y ≠ 0) :
    decode (recordOf op x y) = .error (.reservedField y) := by
  rcases hop with rfl | rfl
  · rw [decode_recordOf_set, decodeIndexed_of_ne_zero _ x hy]
  · rw [decode_recordOf_test, decodeIndexed_of_ne_zero _ x hy]

/-- A format I record with `y` = 0 is a SET or a TEST of its `x` (rule R44). -/
theorem exists_decode_recordOf_zero {op : BitVec 8} (hop : op = 0x01 ∨ op = 0x02) (x : Word) :
    ∃ i : Instr, (i = .set x ∨ i = .test x) ∧ decode (recordOf op x 0) = .ok i := by
  rcases hop with rfl | rfl
  exacts [⟨_, .inl rfl, decode_encode (.set x)⟩, ⟨_, .inr rfl, decode_encode (.test x)⟩]

end Sys2Proof

namespace Sys2Proof.Machine

/-! ## The order of the error checks -/

/-- SET and TEST fail exactly by their index (rules R71, R88). -/
theorem responseOf_status_indexed (p : Params) (mem : Memory) {x : Word} {i : Instr} (hi : i = .set x ∨ i = .test x) :
    (responseOf p mem i).status = if p.m ≤ x.toNat then .indexOutOfRange else .ok := by
  by_cases hx : p.m ≤ x.toNat
  · rw [if_pos hx]
    exact (responseOf_status_eq_indexOutOfRange_iff p mem i).2 ⟨x, hi, hx⟩
  · rw [if_neg hx]
    rcases hi with rfl | rfl <;> rw [responseOf, if_pos (Nat.not_le.1 hx)] <;> rfl

/-- The status of every record by its fields, in the order of rule R92. -/
theorem recordResponse_status_recordOf (p : Params) (mem : Memory) (op : BitVec 8) (x y : Word) :
    (recordResponse p mem (recordOf op x y)).status =
      if op.toNat = 0 ∨ 6 ≤ op.toNat then .illegalCommand
      else if (op = 0x01 ∨ op = 0x02) ∧ y ≠ 0 then .illegalCommand
      else if (op = 0x01 ∨ op = 0x02) ∧ p.m ≤ x.toNat then .indexOutOfRange
      else .ok := by
  by_cases hreserved : op.toNat = 0 ∨ 6 ≤ op.toNat
  · rw [if_pos hreserved, recordResponse_of_illegal (decode_recordOf_reserved x y hreserved)]; rfl
  rw [if_neg hreserved]
  by_cases hindexed : op = 0x01 ∨ op = 0x02
  · by_cases hy : y = 0
    · subst hy
      obtain ⟨i, hi, hd⟩ := exists_decode_recordOf_zero hindexed x
      rw [if_neg fun h => h.2 rfl, recordResponse_of_legal hd, responseOf_status_indexed p mem hi]
      simp only [hindexed, true_and]
    · rw [if_pos ⟨hindexed, hy⟩, recordResponse_of_illegal (decode_recordOf_reservedField hindexed x hy)]; rfl
  · have hhash : op = 0x03 ∨ op = 0x04 ∨ op = 0x05 := by
      have := op_cases op
      tauto
    rw [if_neg fun h => hindexed h.1, if_neg fun h => hindexed h.1]
    rcases hhash with rfl | rfl | rfl
    · rw [recordResponse_of_legal (decode_recordOf_derive x y)]; rfl
    · rw [recordResponse_of_legal (decode_recordOf_insert x y)]; rfl
    · rw [recordResponse_of_legal (decode_recordOf_query x y)]; rfl

/-- Settles O9: the response the step adds is that of the record, and its status follows the order of the checks. -/
theorem errorPriority : Obligations.ErrorPriority := by
  intro s op x y rest hp
  exact ⟨_, _, step_command hp, rfl, recordResponse_status_recordOf s.params s.bits op x y⟩

/-! ## A failed command within a run -/

/-- A record answered with an error changes no cell, whichever of the two errors it is (rule R93). -/
theorem recordBits_of_status_ne_ok {p : Params} {mem : Memory} {c : Record} (h : (recordResponse p mem c).status ≠ .ok) :
    recordBits p mem c = mem := by
  cases hd : decode c with
  | error e => exact recordBits_of_illegal hd p mem
  | ok i =>
    rw [recordResponse_of_legal hd] at h
    rw [recordBits_of_legal hd, bitsAfter_of_status_ne_ok h]

/-- A failed command is answered and leaves everything else as it was; `Tests.test_set_at_size` runs one. -/
theorem afterAction_of_status_ne_ok {s : State} {c : Record} (h : (recordResponse s.params s.bits c).status ≠ .ok) :
    afterAction s (.command c) = s.answer (recordResponse s.params s.bits c) := by
  rw [afterAction, recordBits_of_status_ne_ok h]; rfl

/-- Settles O11: the failed command only adds its response, and no later command reads the responses given back. -/
theorem failedCommandLeavesNoTrace : Obligations.FailedCommandLeavesNoTrace := by
  intro s c cs
  obtain ⟨rs, hwith⟩ :=
    exists_foldl_afterAction_responses (cs.map .command) (afterAction { s with pending := [] } (.command c))
  obtain ⟨qs, hwithout⟩ := exists_foldl_afterAction_responses (cs.map .command) { s with pending := [] }
  have ht := congrArg State.responses (hwith (s.responses ++ [recordResponse s.params s.bits c]))
  refine ⟨_, _, recordResponse s.params s.bits c, rs, qs, runCommands_eq s (c :: cs), runCommands_eq s cs,
    ht.trans (List.append_cons ..).symm, congrArg State.responses (hwithout s.responses), fun herror => ?_⟩
  have hrun := hwithout (s.responses ++ [recordResponse s.params s.bits c])
  have hfailed := afterAction_of_status_ne_ok (s := { s with pending := [] }) herror
  have hbits := congrArg State.bits hrun
  rw [hfailed] at ht
  rw [List.map_cons, List.foldl_cons, hfailed]
  exact ⟨hbits, List.append_cancel_left (ht.symm.trans (congrArg State.responses hrun))⟩

/-! ## What a step answers, and from what -/

/-- Settles O41: a step waits or takes the action presented first, and both answer a next state. -/
theorem everyStepAnswers : Obligations.EveryStepAnswers := by
  intro s
  rcases step_cases s with ⟨-, hs⟩ | ⟨a, rest, -, hs⟩
  · exact ⟨s, hs⟩
  · exact ⟨_, hs⟩

/-- Settles O42: the cells and the response of a step on a record are functions of M, K, the cells and the record. -/
theorem stepDependsOnRecordAndCellsOnly : Obligations.StepDependsOnRecordAndCellsOnly := by
  intro s q c rest rest' hparams hbits hs hq
  refine ⟨_, _, recordResponse s.params s.bits c, step_command hs, step_command hq, ?_, rfl, ?_⟩
  · rw [hparams, hbits]
  · rw [hparams, hbits]

/-! ## The status codes -/

theorem code_toNat_lt_three (st : Status) : st.code.toNat < 3 := by
  cases st with
  | ok | indexOutOfRange | illegalCommand => decide

/-- Settles O46: the code of each status, and that no status has another. -/
theorem statusCodes : Obligations.StatusCodes := ⟨rfl, rfl, rfl, code_toNat_lt_three⟩

end Sys2Proof.Machine
end

section
/-! SUPPORT. The statement about a block with nothing presented (70_reset_and_hazards.md). -/

namespace Sys2Proof.Machine

/-- Settles O40: with nothing presented there is no action to take. -/
theorem idleBlockWaits : Obligations.IdleBlockWaits := fun _ hnone => step_waits hnone

end Sys2Proof.Machine
end
